-- ==== Sys2Proof/Word.lean ====
section
/-! DEFINITION. The two unsigned types the engine's data is made of (spec/00_scope.md rules R7 and R8). Everything
that computes on them stands in files under Machine/. -/

namespace Sys2Proof

/-- A word: a 32-bit unsigned integer, bit 0 its least significant bit (R7, R8). -/
abbrev Word := BitVec 32

/-- A byte: an 8-bit unsigned integer (R7, R8). -/
abbrev Byte := BitVec 8

end Sys2Proof
end

