-- ==== Sys2Proof/Syntax.lean ====
section
/-! DEFINITION. The whole syntax of the host's side: the fourteen commands (30_encoding.md rule R91), the address
spaces (20_memory.md rule R60), the transaction record (rule R96) and the events that can happen to one engine
(00_scope.md rule R16). -/

namespace Sys2Proof

/-- The fourteen commands, in the order of the opcode table (R91). No command has an operand (R93), so no
constructor has an argument. -/
inductive Instr where
  | init
  | pad
  | towords
  | tobytes
  | loadblk
  | sched
  | expand
  | loadv
  | round
  | rounds
  | addback
  | compress
  | digest
  | hash
deriving DecidableEq, Repr

/-- The eight address spaces that hold cells (R60); space numbers 8 to 15 are reserved and are no constructor. -/
inductive Space where
  /-- Space 0: the control and status registers (R38). -/
  | csr
  /-- Space 1: the running hash state H. -/
  | h
  /-- Space 2: the working state V. -/
  | v
  /-- Space 3: the message schedule W. -/
  | w
  /-- Space 4: the digest DIG. -/
  | dig
  /-- Space 5: the message memory MSG. -/
  | msg
  /-- Space 6: the padded-message buffer PMB. -/
  | pmb
  /-- Space 7: the word-sequence memory WSEQ. -/
  | wseq
deriving DecidableEq, Repr

/-- A host transaction: the record of rule R96. `kind` is the constructor; `data` is absent for a read. The fields
are the record's own numbers, and which numbers form a record is said in WellFormed.lean. -/
inductive Txn where
  /-- `(R, space, off, width)`. -/
  | read (space off width : Nat)
  /-- `(W, space, off, width, data)`. -/
  | write (space off width data : Nat)
deriving DecidableEq, Repr

/-- What can happen to an engine: a host transaction, or the reset event, "the only other event" (R16, R220). -/
inductive HostEvent where
  | txn (t : Txn)
  | reset
deriving DecidableEq, Repr

end Sys2Proof
end

