-- ==== Sys2Proof/Decode.lean ====
section
/-! DEFINITION. The decoder of command words (30_encoding.md rule R92), total on 32-bit values, and after it the
encoder written from the same table (rules R90 and R91). -/

namespace Sys2Proof

/-- Why a value written to CMD is no command. -/
inductive DecodeError where
  /-- The value is not one of the fourteen command words; `op` is its bits 7:0, which ERR records (R92, R194). -/
  | illegalCommand (op : Byte)
deriving DecidableEq, Repr

/-- Field `op`, bits 7:0 of a command word (R90). -/
def opField (c : Word) : Byte := c.extractLsb' 0 8

/-- Field `zero`, bits 31:8 of a command word (R90). -/
def zeroField (c : Word) : BitVec 24 := c.extractLsb' 8 24

/-- The opcode map read from the opcode to the command (R91). -/
def commandOf : Nat → Option Instr
  | 0x01 => some .init
  | 0x02 => some .pad
  | 0x03 => some .towords
  | 0x04 => some .tobytes
  | 0x05 => some .loadblk
  | 0x06 => some .sched
  | 0x07 => some .expand
  | 0x08 => some .loadv
  | 0x09 => some .round
  | 0x0A => some .rounds
  | 0x0B => some .addback
  | 0x0C => some .compress
  | 0x0D => some .digest
  | 0x0E => some .hash
  | _ => none

/-- Decoding a command word (R92): a non-zero `zero` field is illegal, then an opcode outside the map. -/
def decode (c : Word) : Except DecodeError Instr :=
  if zeroField c ≠ 0 then .error (.illegalCommand (opField c))
  else
    match commandOf (opField c).toNat with
    | some i => .ok i
    | none => .error (.illegalCommand (opField c))

/-- The opcode of a command (R91). -/
def opcode : Instr → Byte
  | .init => 0x01
  | .pad => 0x02
  | .towords => 0x03
  | .tobytes => 0x04
  | .loadblk => 0x05
  | .sched => 0x06
  | .expand => 0x07
  | .loadv => 0x08
  | .round => 0x09
  | .rounds => 0x0A
  | .addback => 0x0B
  | .compress => 0x0C
  | .digest => 0x0D
  | .hash => 0x0E

/-- The command word of a command in format C: `zero` in bits 31:8, `op` in bits 7:0 (R90). -/
def encode (i : Instr) : Word := (0 : BitVec 24) ++ opcode i

/-- The decoder asked with a row of the opcode table: `w` holds the row's `nbits` bits, every bit above them is 0. A
command is one 32-bit word (R95), so a number that needs more than 32 bits is no command word. -/
def decodeTableWord (nbits w : Nat) : Option Instr :=
  let v := w % 2 ^ nbits
  if v < 2 ^ 32 then (decode (BitVec.ofNat 32 v)).toOption else none

end Sys2Proof
end

