-- ==== Sys2Proof/Machine/Arith.lean ====
section
/-! DEFINITION. The arithmetic primitives on words (00_scope.md rules R9 to R12) and the big-endian byte sequences
(rules R14 and R67) that every unit uses. -/

namespace Sys2Proof.Machine

/-- `add32(x, y) = (x + y) mod 2^32`; no carry or overflow is kept (R9). -/
def add32 (x y : Word) : Word := x + y

/-- `ROTR(x, n) = ((x >> n) OR (x << (32 - n))) mod 2^32`, for `1 <= n <= 31` (R11). -/
def rotr (x : Word) (n : Nat) : Word := (x >>> n) ||| (x <<< (32 - n))

/-- `SHR(x, n)`, the logical shift right (R12). -/
def shr (x : Word) (n : Nat) : Word := x >>> n

/-- `be32(w)`: the four bytes of a word, most significant first (R14). -/
def be32 (w : Word) : List Byte :=
  [w.extractLsb' 24 8, w.extractLsb' 16 8, w.extractLsb' 8 8, w.extractLsb' 0 8]

/-- `word_be(b0, b1, b2, b3)`, the inverse of `be32` (R14): `b0` is bits 31:24. -/
def wordBE (b0 b1 b2 b3 : Byte) : Word := b0 ++ b1 ++ b2 ++ b3

/-- `be64(v)`: the eight bytes of a 64-bit value, most significant first (R14). -/
def be64 (v : BitVec 64) : List Byte :=
  [v.extractLsb' 56 8, v.extractLsb' 48 8, v.extractLsb' 40 8, v.extractLsb' 32 8,
   v.extractLsb' 24 8, v.extractLsb' 16 8, v.extractLsb' 8 8, v.extractLsb' 0 8]

/-- Bits 31:0 of a 64-bit register: what its `_LO` cell reads as (R38). -/
def low32 (r : BitVec 64) : Word := r.extractLsb' 0 32

/-- Bits 63:32 of a 64-bit register: what its `_HI` cell reads as (R38). -/
def high32 (r : BitVec 64) : Word := r.extractLsb' 32 32

/-- "A write to a `_LO` cell replaces bits 31:0 of the 64-bit register and leaves bits 63:32" (R38). -/
def setLow32 (r : BitVec 64) (v : Word) : BitVec 64 := high32 r ++ v

/-- "a write to a `_HI` cell replaces bits 63:32 and leaves bits 31:0" (R38). -/
def setHigh32 (r : BitVec 64) (v : Word) : BitVec 64 := v ++ low32 r

end Sys2Proof.Machine
end

