-- ==== Sys2Proof/Config.lean ====
section
/-! DEFINITION. What is fixed for one engine and never changes while it runs (spec/10_state.md rule R45), and the
free values the spec leaves open (rule R43). The capacities that follow from `MSG_CAP` are computed in
Machine/Ops.lean. -/

namespace Sys2Proof

/-- The one open implementation parameter, `MSG_CAP` (00_scope.md rule R6; decision D6). It is carried in `State.cfg`
so that a run can be evaluated and so that a statement about every state is a statement about every capacity. -/
structure Config where
  /-- `MSG_CAP`: the number of byte cells of the message memory MSG. -/
  msgCap : Nat
deriving DecidableEq, Repr

/-- The bound rule R6 puts on the parameter: `MSG_CAP <= 2^61 - 1`. -/
def Config.wf (c : Config) : Bool := decide (c.msgCap ≤ 2 ^ 61 - 1)

/-- The parameter value of every example of 95_test_vectors.md (R6). DESIGN CHOICE, log entry 2: the spec leaves
the parameter open. -/
def Config.reference : Config := { msgCap := 256 }

/-- The value a read of an 8-bit cell that nothing has written since reset yields: "any value of the cell's width;
two reads of the same unwritten cell need not agree" (R43). The arguments are the number of the draw, the number of
the space and the offset of the cell; there is no body, so nothing can be proved about the value (log entry 3). -/
opaque Config.freeByte (draw space off : Nat) : Byte

/-- The same for a 32-bit cell (R43, log entry 3). -/
opaque Config.freeWord (draw space off : Nat) : Word

end Sys2Proof
end

