-- ==== Sys2Proof/Machine/State.lean ====
section
/-! DEFINITION. The state of one engine as plain data (10_state.md rule R20), with the host interface beside it, the
error causes (60_exceptions.md rule R191), the responses (30_encoding.md rule R96) and the state after reset (10_state.md rule R42). -/

namespace Sys2Proof.Machine

/-- The six error causes (R191); their codes are `Cause.code` in Flags.lean. -/
inductive Cause where
  | invalidLength
  | capacityError
  | illegalCommand
  | sequenceError
  | blockRangeError
  | busError
deriving DecidableEq, Repr

/-- The response of a transaction (R96): `OK`, `OK(v)` with `v` of the cell's width, or `ERR(cause)`. -/
inductive Response where
  | ok
  | ok8 (v : Byte)
  | ok32 (v : Word)
  | err (c : Cause)
deriving DecidableEq, Repr

/-- The reasons the machine could stop with a fault. The spec gives none, so there is no constructor: "after an error
the engine accepts the next transaction as after a success" (R190). Every error is a NEXT state (`raise` in Ops.lean). -/
inductive Fault where
deriving DecidableEq, Repr

/-- The reasons a step is refused. -/
inductive Refusal where
  /-- Raised by an arm of `exec` whose instruction has no meaning yet. Safe. No arm raises it: all fourteen commands
  have their meaning. -/
  | notModelled (mnemonic : String)
  /-- Raised by `hostEvent` (Bus.lean) for a pending record that is no transaction record of R96 (a space number above
  15, or data wider than the width): "Space numbers above 15 do not exist in a transaction record; refuse"
  (93_implementation_defined.md U11, log entry 13). Safe: no host can issue it. No command raises it. -/
  | notATransaction
deriving DecidableEq, Repr

/-- One register of a register file: the value it holds, and whether anything has written it since reset. The mark is
the model's own (R43: "The engine keeps no 'written' marks"); it tells an "unspecified" register, each read of which is
a free draw, from an ordinary one. -/
structure Reg (w : Nat) where
  val : BitVec w
  written : Bool
deriving DecidableEq, Repr

/-- A register after reset: unspecified (R42). The zero it holds is never read (DESIGN CHOICE, log entry 1). -/
def Reg.unwritten {w : Nat} : Reg w := { val := 0, written := false }

/-- A register file of `n` registers of `w` bits. -/
abbrev RegFile (w n : Nat) := Vector (Reg w) n

/-- A memory of `w`-bit cells, keyed by the offset of the cell (R61): the cells written since reset, offsets strictly
rising. An offset that is not listed is an unspecified cell (R43, log entries 8 and 14). For `w = 8` it is a list of `Host.Cell`. -/
abbrev Memory (w : Nat) := List (Nat × BitVec w)

/-- The state. The fields from `H` to `WSEQ` are rule R20's list, whole and in its order. `cfg` is configuration
(R45); `pending` and `response` are the host interface (R16, R96); `draws` is the model's own. -/
structure State where
  /-- The parameter `MSG_CAP` (R6, R45). No step changes it. -/
  cfg : Config
  /-- H[0..7], the running hash state (R21). -/
  H : RegFile 32 8
  /-- V[0..7] = a, b, c, d, e, f, g, h, the working state (R22). -/
  V : RegFile 32 8
  /-- W[0..63], the message schedule (R23). -/
  W : RegFile 32 64
  /-- DIG[0..31], the digest (R24). -/
  DIG : RegFile 8 32
  /-- Length of the message in bytes (R25). -/
  LEN : BitVec 64
  /-- Length of the byte sequence in PMB (R26). -/
  PLEN : BitVec 64
  /-- Length of the word sequence in words (R27). -/
  WLEN : BitVec 64
  /-- The block pointer (R28). -/
  BP : BitVec 64
  /-- The schedule counter (R29). -/
  TS : BitVec 7
  /-- The round counter (R30). -/
  TR : BitVec 7
  /-- The error register: CAUSE in bits 7:0, OP in bits 15:8, bits 31:16 always 0 (R31). -/
  ERR : Word
  /-- MSG[0 .. MSG_CAP), the message memory (R33). -/
  MSG : Memory 8
  /-- PMB[0 .. PMB_CAP), the padded-message buffer (R34). -/
  PMB : Memory 8
  /-- WSEQ[0 .. WSEQ_CAP), the word-sequence memory (R35). -/
  WSEQ : Memory 32
  /-- What the host will do next, in order of issue (R16, R75): the machine's input (log entry 4). -/
  pending : List HostEvent
  /-- The response of the last transaction (R96); none before the first one since reset (log entry 5). -/
  response : Option Response
  /-- How many free draws have been made (R43, log entry 3): the model's own. -/
  draws : Nat
deriving DecidableEq, Repr

/-- The state after reset of an engine with parameter `cfg` (R42). -/
def State.resetWith (cfg : Config) : State where
  cfg := cfg
  H := Vector.replicate 8 Reg.unwritten
  V := Vector.replicate 8 Reg.unwritten
  W := Vector.replicate 64 Reg.unwritten
  DIG := Vector.replicate 32 Reg.unwritten
  LEN := 0
  PLEN := 0
  WLEN := 0
  BP := 0
  TS := 64
  TR := 64
  ERR := 0
  MSG := []
  PMB := []
  WSEQ := []
  pending := []
  response := none
  draws := 0

/-- The state after reset (R42), for the parameter value of the spec's examples (log entry 2). -/
def State.reset : State := State.resetWith Config.reference

end Sys2Proof.Machine
end

