-- ==== Sys2Proof/Machine/Flags.lean ====
section
/-! DEFINITION. The engine has no condition codes, carry or overflow flag; "The only status the engine keeps is ERR"
(10_state.md rule R39). So the flag computations are those of ERR: the cause codes (60_exceptions.md rule R191), the
value an error records (rule R199) and the fields of the register (10_state.md rule R31). -/

namespace Sys2Proof.Machine

/-- The code of a cause: "The code is the value of `ERR[7:0]` and of the error response" (R191). -/
def Cause.code : Cause → Byte
  | .invalidLength => 1
  | .capacityError => 2
  | .illegalCommand => 3
  | .sequenceError => 4
  | .blockRangeError => 5
  | .busError => 6

/-- The value an error with cause `c` and opcode byte `op` records: `(o << 8) OR c` (R199). -/
def errWord (c : Cause) (op : Byte) : Word := (op.zeroExtend 32 <<< 8) ||| c.code.zeroExtend 32

/-- Field CAUSE of ERR, bits 7:0 (R31). -/
def errCause (e : Word) : Byte := e.extractLsb' 0 8

/-- Field OP of ERR, bits 15:8 (R31). -/
def errOp (e : Word) : Byte := e.extractLsb' 8 8

/-- The reserved field of ERR, bits 31:16 (R31). -/
def errReserved (e : Word) : BitVec 16 := e.extractLsb' 16 16

end Sys2Proof.Machine
end

