-- ==== Sys2Proof/Machine/Ops.lean ====
section
/-! DEFINITION. The operations every unit shares: registers and memory cells (20_memory.md rule R71), the free draws
of cells never written (10_state.md rule R43), the capacities (00_scope.md rule R6), the response of a transaction,
raising an error (60_exceptions.md rule R199) and clearing the error record (rule R201). -/

namespace Sys2Proof.Machine

/-! ### Register files -/

/-- What a register holds: `none` while it is unspecified (R43) or where the file has no register `i`. -/
def RegFile.content {w n : Nat} (f : RegFile w n) (i : Nat) : Option (BitVec w) :=
  match f[i]? with
  | some r => if r.written then some r.val else none
  | none => none

/-- The registers of a file after the values `vs` are written to the registers `i`, `i + 1`, ...: each is then an
ordinary register (R43). -/
def patch {w : Nat} : List (Reg w) → Nat → List (BitVec w) → List (Reg w)
  | [], _, _ => []
  | r :: rs, i + 1, vs => r :: patch rs i vs
  | _ :: rs, 0, v :: vs => { val := v, written := true } :: patch rs 0 vs
  | r :: rs, 0, [] => r :: rs

theorem patch_length {w : Nat} : ∀ (rs : List (Reg w)) (i : Nat) (vs : List (BitVec w)),
    (patch rs i vs).length = rs.length
  | [], _, _ => rfl
  | _ :: rs, i + 1, vs => congrArg (· + 1) (patch_length rs i vs)
  | _ :: rs, 0, _ :: vs => congrArg (· + 1) (patch_length rs 0 vs)
  | _ :: _, 0, [] => rfl

/-- The values `vs` written to the registers `i`, `i + 1`, ... of a file. Every offset is inside the file where the
counters are in their ranges (R41); a write outside it is dropped (log entry 6). -/
def RegFile.writeMany {w n : Nat} (f : RegFile w n) (i : Nat) (vs : List (BitVec w)) : RegFile w n :=
  ⟨⟨patch f.toList i vs⟩, by rw [List.size_toArray, patch_length, Vector.length_toList]⟩

/-- "The first write of any kind ... gives the cell the written value" (R43). -/
def RegFile.write {w n : Nat} (f : RegFile w n) (i : Nat) (v : BitVec w) : RegFile w n := RegFile.writeMany f i [v]

/-! ### Memories -/

/-- What cell `i` of a memory holds: `none` while it is unspecified (R43). -/
def Memory.content {w : Nat} : Memory w → Nat → Option (BitVec w)
  | [], _ => none
  | (a, v) :: m, i => if a = i then some v else Memory.content m i

/-- `MemWrite` (R71): cell `i` gets `v`; the list stays in rising order of offsets. -/
def Memory.write {w : Nat} : Memory w → Nat → BitVec w → Memory w
  | [], i, v => [(i, v)]
  | (a, u) :: m, i, v =>
    if i < a then (i, v) :: (a, u) :: m
    else if i = a then (i, v) :: m
    else (a, u) :: Memory.write m i v

/-- The values `vs` written to the cells `i`, `i + 1`, ... in increasing order. -/
def Memory.writeMany {w : Nat} (m : Memory w) (i : Nat) : List (BitVec w) → Memory w
  | [] => m
  | v :: vs => Memory.writeMany (Memory.write m i v) (i + 1) vs

/-- The canonical form of a memory: offsets strictly rising. (No entry can equal what an unlisted offset reads as,
because that is a free draw and no value.) -/
def Memory.wf {w : Nat} : Memory w → Bool
  | [] => true
  | [_] => true
  | (a, _) :: (b, v) :: m => decide (a < b) && Memory.wf ((b, v) :: m)

/-- Every listed offset is a cell of a memory of `cap` cells (R60). -/
def Memory.below {w : Nat} (cap : Nat) (m : Memory w) : Bool := m.all fun e => decide (e.1 < cap)

/-! ### Capacities (R6) -/

/-- `PMB_CAP = 64 * ((MSG_CAP + 72) div 64)`. -/
def pmbCap (c : Config) : Nat := 64 * ((c.msgCap + 72) / 64)

/-- `WSEQ_CAP = PMB_CAP div 4`. -/
def wseqCap (c : Config) : Nat := pmbCap c / 4

/-! ### Reading cells

A read of a cell never written is a free draw under no law (R43): `Config.freeByte` or `Config.freeWord` at the number
of draws so far, the space number (R60) and the offset. `nextDraw` follows each group of reads of different cells, so
that no two reads share a draw (log entry 3). -/

/-- The reads made so far are over: later reads of unspecified cells are new draws. -/
def State.nextDraw (s : State) : State := { s with draws := s.draws + 1 }

/-- Read of H[i]. -/
def State.readH (s : State) (i : Nat) : Word := (RegFile.content s.H i).getD (Config.freeWord s.draws 1 i)

/-- Read of V[i]. -/
def State.readV (s : State) (i : Nat) : Word := (RegFile.content s.V i).getD (Config.freeWord s.draws 2 i)

/-- Read of W[i]. -/
def State.readW (s : State) (i : Nat) : Word := (RegFile.content s.W i).getD (Config.freeWord s.draws 3 i)

/-- Read of DIG[i]. -/
def State.readDig (s : State) (i : Nat) : Byte := (RegFile.content s.DIG i).getD (Config.freeByte s.draws 4 i)

/-- `MemRead(MSG, i, 8)` (R71). -/
def State.readMsg (s : State) (i : Nat) : Byte := (Memory.content s.MSG i).getD (Config.freeByte s.draws 5 i)

/-- `MemRead(PMB, i, 8)` (R71). -/
def State.readPmb (s : State) (i : Nat) : Byte := (Memory.content s.PMB i).getD (Config.freeByte s.draws 6 i)

/-- `MemRead(WSEQ, i, 32)` (R71). -/
def State.readWseq (s : State) (i : Nat) : Word := (Memory.content s.WSEQ i).getD (Config.freeWord s.draws 7 i)

/-! ### Ending a transaction -/

/-- The transaction's response is `r`. -/
def State.respond (s : State) (r : Response) : State := { s with response := some r }

/-- `respond OK`. -/
def respondOk (s : State) : Host.Outcome State Fault Refusal := .next (s.respond .ok)

/-- The error record after an error: "ERR keeps the first error since it was last cleared" (R199). -/
def recordError (e : Word) (c : Cause) (op : Byte) : Word := if e = 0 then errWord c op else e

/-- `raise c(op)`: error entry (R199), the engine's whole exception mechanism. The error is recorded if ERR is 0, the
response is `ERR(c)`, and nothing else changes; "Control goes nowhere". `op` is 0 for a BusError. -/
def raise (c : Cause) (op : Byte) (s : State) : Host.Outcome State Fault Refusal :=
  .next ({ s with ERR := recordError s.ERR c op }.respond (.err c))

/-- Error return (R201): "There is nothing to return from"; the host clears the record by a write to ERR. -/
def clearErr (s : State) : State := { s with ERR := 0 }

/-- The reset event (R220, log entry 10): the state of R42. What the host will do next is not the engine's, and draws made after the
event are new draws. -/
def takeReset (s : State) : State :=
  { State.resetWith s.cfg with pending := s.pending, draws := s.draws }

end Sys2Proof.Machine
end

