-- ==== Sys2Proof/Machine/Operands.lean ====
section
/-! DEFINITION. The operands of the commands. No command word has an operand field; "Every command takes its inputs
from, and puts its results in, fixed pieces of state" (30_encoding.md rule R93). These are the fixed pieces that serve
as the arguments of the document's functions, and the range check of the block operand. -/

namespace Sys2Proof.Machine

/-- The argument of `pad` and `hash`: MSG[0 .. LEN). -/
def State.message (s : State) : List Byte := (List.range s.LEN.toNat).map s.readMsg

/-- The argument of `toWords`: PMB[0 .. PLEN). -/
def State.paddedBytes (s : State) : List Byte := (List.range s.PLEN.toNat).map s.readPmb

/-- The argument of `toBytes`: WSEQ[0 .. WLEN). -/
def State.wordSeq (s : State) : List Word := (List.range s.WLEN.toNat).map s.readWseq

/-- The block at the block pointer: WSEQ[16*BP .. 16*BP + 16) (R28). -/
def State.block (s : State) : List Word := (List.range 16).map fun i => s.readWseq (16 * s.BP.toNat + i)

/-- The running hash state H[0..7] as a sequence. -/
def State.running (s : State) : List Word := (List.range 8).map s.readH

/-- Whether the block at BP is not there: `WLEN > WSEQ_CAP or 16*BP + 16 > WLEN`, on exact natural numbers (R13,
42_scheduler.md rule R133, 60_exceptions.md rule R196). -/
def State.blockOutOfRange (s : State) : Bool :=
  decide (s.WLEN.toNat > wseqCap s.cfg) || decide (16 * s.BP.toNat + 16 > s.WLEN.toNat)

end Sys2Proof.Machine
end

