-- ==== Sys2Proof/Machine/Scheduler.lean ====
section
/-! DEFINITION. The message scheduler (42_scheduler.md): the small sigmas, the schedule as a function of a block, and
the commands LOADBLK, SCHED and EXPAND. -/

namespace Sys2Proof.Machine

/-- `smallSig0(x) = ROTR(x, 7) XOR ROTR(x, 18) XOR SHR(x, 3)` (R130). -/
def smallSig0 (x : Word) : Word := rotr x 7 ^^^ rotr x 18 ^^^ shr x 3

/-- `smallSig1(x) = ROTR(x, 17) XOR ROTR(x, 19) XOR SHR(x, 10)` (R131). -/
def smallSig1 (x : Word) : Word := rotr x 17 ^^^ rotr x 19 ^^^ shr x 10

/-- The recurrence of the schedule on the four words it reads, W[t-2], W[t-7], W[t-15] and W[t-16] (R132). -/
def scheduleWord (w2 w7 w15 w16 : Word) : Word :=
  add32 (add32 (add32 (smallSig1 w2) w7) (smallSig0 w15)) w16

/-- The schedule `S` of the words computed so far, with `k` more words: word `t = len(S)` from words of lower index,
"evaluated in increasing `t`" (R132). -/
def extendSchedule : Nat → List Word → List Word
  | 0, S => S
  | k + 1, S =>
    let t := S.length
    extendSchedule k (S ++ [scheduleWord (S.getD (t - 2) 0) (S.getD (t - 7) 0) (S.getD (t - 15) 0) (S.getD (t - 16) 0)])

/-- `schedule(blk)`: the 64-word schedule of a block of 16 words (R132). -/
def schedule (blk : List Word) : List Word := extendSchedule 48 blk

/-- The block at BP copied into W[0..15], the first step of LOADBLK and COMPRESS (R133, R151). -/
def takeBlock (s : State) : State := { s with W := RegFile.writeMany s.W 0 s.block }.nextDraw

/-- Schedule word `t` computed in W (R134): the four reads, then the write. -/
def scheduleStep (s : State) (t : Nat) : State :=
  { s with
    W := RegFile.write s.W t
      (scheduleWord (s.readW (t - 2)) (s.readW (t - 7)) (s.readW (t - 15)) (s.readW (t - 16))) }.nextDraw

/-- `for t = lo .. 63`: the schedule words that remain, in increasing `t` (R135). -/
def scheduleFrom (lo : Nat) (s : State) : State := (List.range' lo (64 - lo)).foldl scheduleStep s

/-- LOADBLK (R133). -/
def execLoadBlk (s : State) : Host.Outcome State Fault Refusal :=
  if s.blockOutOfRange then raise .blockRangeError 0x05 s
  else respondOk { takeBlock s with TS := 16 }

/-- SCHED (R134). -/
def execSched (s : State) : Host.Outcome State Fault Refusal :=
  if s.TS = 64 then raise .sequenceError 0x06 s
  else respondOk { scheduleStep s s.TS.toNat with TS := BitVec.ofNat 7 (s.TS.toNat + 1) }

/-- EXPAND (R135). It has no error. -/
def execExpand (s : State) : Host.Outcome State Fault Refusal :=
  respondOk { scheduleFrom s.TS.toNat s with TS := 64 }

end Sys2Proof.Machine
end

