-- ==== Sys2Proof/Machine/Compressor.lean ====
section
/-! DEFINITION. The compressor engine (43_compressor.md): the helper functions, the table K, the round and the
Compressor as functions, and the commands LOADV, ROUND, ROUNDS, ADDBACK and COMPRESS. -/

namespace Sys2Proof.Machine

/-- `Ch(x, y, z) = (x AND y) OR ((NOT x) AND z)` (R140). -/
def ch (x y z : Word) : Word := (x &&& y) ||| (~~~x &&& z)

/-- `Maj(x, y, z) = (x AND y) OR (x AND z) OR (y AND z)` (R141). -/
def maj (x y z : Word) : Word := (x &&& y) ||| (x &&& z) ||| (y &&& z)

/-- `bigSig0(x) = ROTR(x, 2) XOR ROTR(x, 13) XOR ROTR(x, 22)` (R142). -/
def bigSig0 (x : Word) : Word := rotr x 2 ^^^ rotr x 13 ^^^ rotr x 22

/-- `bigSig1(x) = ROTR(x, 6) XOR ROTR(x, 11) XOR ROTR(x, 25)` (R143). -/
def bigSig1 (x : Word) : Word := rotr x 6 ^^^ rotr x 11 ^^^ rotr x 25

/-- K[0..15] (R144). -/
def roundConstants0 : List Word :=
  [0x428A2F98, 0x71374491, 0xB5C0FBCF, 0xE9B5DBA5, 0x3956C25B, 0x59F111F1, 0x923F82A4, 0xAB1C5ED5,
   0xD807AA98, 0x12835B01, 0x243185BE, 0x550C7DC3, 0x72BE5D74, 0x80DEB1FE, 0x9BDC06A7, 0xC19BF174]

/-- K[16..31] (R144). -/
def roundConstants1 : List Word :=
  [0xE49B69C1, 0xEFBE4786, 0x0FC19DC6, 0x240CA1CC, 0x2DE92C6F, 0x4A7484AA, 0x5CB0A9DC, 0x76F988DA,
   0x983E5152, 0xA831C66D, 0xB00327C8, 0xBF597FC7, 0xC6E00BF3, 0xD5A79147, 0x06CA6351, 0x14292967]

/-- K[32..47] (R144). -/
def roundConstants2 : List Word :=
  [0x27B70A85, 0x2E1B2138, 0x4D2C6DFC, 0x53380D13, 0x650A7354, 0x766A0ABB, 0x81C2C92E, 0x92722C85,
   0xA2BFE8A1, 0xA81A664B, 0xC24B8B70, 0xC76C51A3, 0xD192E819, 0xD6990624, 0xF40E3585, 0x106AA070]

/-- K[48..63] (R144). -/
def roundConstants3 : List Word :=
  [0x19A4C116, 0x1E376C08, 0x2748774C, 0x34B0BCB5, 0x391C0CB3, 0x4ED8AA4A, 0x5B9CCA4F, 0x682E6FF3,
   0x748F82EE, 0x78A5636F, 0x84C87814, 0x8CC70208, 0x90BEFFFA, 0xA4506CEB, 0xBEF9A3F7, 0xC67178F2]

/-- The table K[0..63] (R144): a constant of the engine, not state (R36). -/
def roundConstants : List Word := roundConstants0 ++ roundConstants1 ++ roundConstants2 ++ roundConstants3

/-- K[t]. Only `t <= 63` occurs where the counters are in their ranges (R41; log entry 6). -/
def K (t : Nat) : Word := roundConstants.getD t 0

/-- The working state `(a, b, c, d, e, f, g, h)` as a value (R145). -/
structure Work where
  a : Word
  b : Word
  c : Word
  d : Word
  e : Word
  f : Word
  g : Word
  h : Word
deriving DecidableEq, Repr

/-- The eight words in the order of V[0..7] (R22). -/
def Work.toList (v : Work) : List Word := [v.a, v.b, v.c, v.d, v.e, v.f, v.g, v.h]

/-- The working state made of an 8-word sequence, word 0 being `a` (R146: `v_0 = s`). -/
def Work.ofList (s : List Word) : Work :=
  ⟨s.getD 0 0, s.getD 1 0, s.getD 2 0, s.getD 3 0, s.getD 4 0, s.getD 5 0, s.getD 6 0, s.getD 7 0⟩

/-- The temporary T1 of a round (R145). -/
def temp1 (v : Work) (k w : Word) : Word :=
  add32 (add32 (add32 (add32 v.h (bigSig1 v.e)) (ch v.e v.f v.g)) k) w

/-- The temporary T2 of a round (R145). -/
def temp2 (v : Work) : Word := add32 (bigSig0 v.a) (maj v.a v.b v.c)

/-- `round(v, k, w)` (R145): the assignment of all eight words is simultaneous. -/
def sha256Round (v : Work) (k w : Word) : Work :=
  ⟨add32 (temp1 v k w) (temp2 v), v.a, v.b, v.c, add32 v.d (temp1 v k w), v.e, v.f, v.g⟩

/-- `v_n` of R146: the working state after the rounds 0 to `n - 1` on the schedule `S`. -/
def roundsOn (S : List Word) (v : Work) : Nat → Work
  | 0 => v
  | n + 1 => sha256Round (roundsOn S v n) (K n) (S.getD n 0)

/-- `compress(s, blk)` (R146), from an 8-word running state and a 16-word block to an 8-word running state. -/
def compress (s blk : List Word) : List Word :=
  List.zipWith add32 s (roundsOn (schedule blk) (Work.ofList s) 64).toList

/-- The working state in V[0..7] (R22). -/
def State.working (s : State) : Work :=
  ⟨s.readV 0, s.readV 1, s.readV 2, s.readV 3, s.readV 4, s.readV 5, s.readV 6, s.readV 7⟩

/-- V[i] <- H[i] for i = 0..7, the step of LOADV and COMPRESS (R147). -/
def loadWorking (s : State) : State := { s with V := RegFile.writeMany s.V 0 s.running }.nextDraw

/-- Round `t` on V, with K[t] and W[t] (R148). -/
def roundStep (s : State) (t : Nat) : State :=
  { s with V := RegFile.writeMany s.V 0 (sha256Round s.working (K t) (s.readW t)).toList }.nextDraw

/-- `for t = lo .. 63`: the rounds that remain, in increasing `t` (R149). -/
def roundsFrom (lo : Nat) (s : State) : State := (List.range' lo (64 - lo)).foldl roundStep s

/-- H[i] <- add32(H[i], V[i]) for i = 0..7, each word by itself (R150). -/
def addBack (s : State) : State :=
  { s with H := RegFile.writeMany s.H 0 (List.zipWith add32 s.running s.working.toList) }.nextDraw

/-- LOADV (R147). It has no error. -/
def execLoadV (s : State) : Host.Outcome State Fault Refusal :=
  respondOk { loadWorking s with TR := 0 }

/-- ROUND (R148). -/
def execRound (s : State) : Host.Outcome State Fault Refusal :=
  if s.TR = 64 ∨ s.TR.toNat ≥ s.TS.toNat then raise .sequenceError 0x09 s
  else respondOk { roundStep s s.TR.toNat with TR := BitVec.ofNat 7 (s.TR.toNat + 1) }

/-- ROUNDS (R149). -/
def execRounds (s : State) : Host.Outcome State Fault Refusal :=
  if s.TS ≠ 64 then raise .sequenceError 0x0A s
  else respondOk { roundsFrom s.TR.toNat s with TR := 64 }

/-- ADDBACK (R150). -/
def execAddBack (s : State) : Host.Outcome State Fault Refusal :=
  if s.TR ≠ 64 then raise .sequenceError 0x0B s
  else respondOk (addBack s)

/-- What COMPRESS does once its check has passed (R151): the steps of LOADBLK, EXPAND, LOADV, ROUNDS and ADDBACK, the
counters at 64, and the block pointer advanced. -/
def compressEffect (s : State) : State :=
  { addBack (roundsFrom 0 (loadWorking (scheduleFrom 16 (takeBlock s)))) with
    TS := 64
    TR := 64
    BP := BitVec.ofNat 64 (s.BP.toNat + 1) }

/-- COMPRESS (R151). -/
def execCompress (s : State) : Host.Outcome State Fault Refusal :=
  if s.blockOutOfRange then raise .blockRangeError 0x0C s
  else respondOk (compressEffect s)

end Sys2Proof.Machine
end

