-- ==== Sys2Proof/Machine/Padding.lean ====
section
/-! DEFINITION. The padding processor (40_padding.md): the function `pad` and the command PAD. -/

namespace Sys2Proof.Machine

/-- `z(L) = (64 - ((L + 9) mod 64)) mod 64`: the number of zero bytes of the padding, in the double-modulo form (R110,
90_conflicts.md C1). -/
def zeroFill (L : Nat) : Nat := (64 - (L + 9) % 64) % 64

/-- `P(L) = L + 1 + z(L) + 8`: the padded length (R111). -/
def paddedLength (L : Nat) : Nat := L + 1 + zeroFill L + 8

/-- `pad(m) = m ++ [0x80] ++ rep(0x00, z(L)) ++ be64((8 * L) mod 2^64)` (R111, R112). -/
def pad (m : List Byte) : List Byte :=
  m ++ [0x80] ++ List.replicate (zeroFill m.length) 0x00 ++ be64 (BitVec.ofNat 64 (8 * m.length))

/-- What PAD does once its check has passed (R114): PMB[0 .. P) is the padded message, PLEN is its length. -/
def padEffect (s : State) : State :=
  { s with
    PMB := Memory.writeMany s.PMB 0 (pad s.message)
    PLEN := BitVec.ofNat 64 (paddedLength s.LEN.toNat) }.nextDraw

/-- PAD (R114). -/
def execPad (s : State) : Host.Outcome State Fault Refusal :=
  if s.LEN.toNat > s.cfg.msgCap then raise .capacityError 0x02 s
  else respondOk (padEffect s)

end Sys2Proof.Machine
end

