-- ==== Sys2Proof/Machine/WordReorder.lean ====
section
/-! DEFINITION. The word reorder unit (41_word_reorder.md): the functions `toWords` and `toBytes` and the commands
TOWORDS and TOBYTES. -/

namespace Sys2Proof.Machine

/-- "groups every 4 bytes, big-endian, into one unsigned 32-bit word, preserving order" (R120). -/
def groupWords : List Byte → List Word
  | b0 :: b1 :: b2 :: b3 :: bs => wordBE b0 b1 b2 b3 :: groupWords bs
  | _ => []

/-- `toWords(B)` (R120): `none` is the failure InvalidLength, exactly when the length is not divisible by 4. -/
def toWords (bs : List Byte) : Option (List Word) :=
  if bs.length % 4 ≠ 0 then none else some (groupWords bs)

/-- `toBytes(Ws)` (R121): "expands each word into 4 big-endian bytes in order". -/
def toBytes (ws : List Word) : List Byte := ws.flatMap be32

/-- What TOWORDS does once its checks have passed (R123): WSEQ[0 .. PLEN div 4) and WLEN. -/
def toWordsEffect (s : State) : State :=
  { s with
    WSEQ := Memory.writeMany s.WSEQ 0 (groupWords s.paddedBytes)
    WLEN := BitVec.ofNat 64 (s.PLEN.toNat / 4) }.nextDraw

/-- TOWORDS (R123); CapacityError is checked before InvalidLength (R198). -/
def execToWords (s : State) : Host.Outcome State Fault Refusal :=
  if s.PLEN.toNat > pmbCap s.cfg then raise .capacityError 0x03 s
  else if s.PLEN.toNat % 4 ≠ 0 then raise .invalidLength 0x03 s
  else respondOk (toWordsEffect s)

/-- What TOBYTES does once its check has passed (R124): PMB[0 .. 4 * WLEN) and PLEN. -/
def toBytesEffect (s : State) : State :=
  { s with
    PMB := Memory.writeMany s.PMB 0 (toBytes s.wordSeq)
    PLEN := BitVec.ofNat 64 (4 * s.WLEN.toNat) }.nextDraw

/-- TOBYTES (R124). -/
def execToBytes (s : State) : Host.Outcome State Fault Refusal :=
  if s.WLEN.toNat > wseqCap s.cfg then raise .capacityError 0x04 s
  else respondOk (toBytesEffect s)

end Sys2Proof.Machine
end

