-- ==== Sys2Proof/Machine/Sequencer.lean ====
section
/-! DEFINITION. The sequencer and the digest finalizer (44_sequencer_finalizer.md): the initial constants, the
commands INIT, DIGEST and HASH, and the function `hash`. -/

namespace Sys2Proof.Machine

/-- The table H0[0..7] (R170): a constant of the engine, not state (R36). -/
def H0 : List Word :=
  [0x6A09E667, 0xBB67AE85, 0x3C6EF372, 0xA54FF53A, 0x510E527F, 0x9B05688C, 0x1F83D9AB, 0x5BE0CD19]

/-- What INIT does (R171): H <- H0, BP <- 0. -/
def initEffect (s : State) : State := { s with H := RegFile.writeMany s.H 0 H0, BP := 0 }

/-- INIT (R171). It has no error. -/
def execInit (s : State) : Host.Outcome State Fault Refusal := respondOk (initEffect s)

/-- What DIGEST does (R172): `DIG[0..31] <- toBytes(H[0..7])`, each H[i] read once (log entry 12). -/
def digestEffect (s : State) : State := { s with DIG := RegFile.writeMany s.DIG 0 (toBytes s.running) }.nextDraw

/-- DIGEST (R172). It has no error. -/
def execDigest (s : State) : Host.Outcome State Fault Refusal := respondOk (digestEffect s)

/-- `while 16*BP < WLEN : COMPRESS`, for at most `fuel` blocks (R174). "The number of iterations of each loop is known
before the loop starts" (R173), so the fuel given by `hashEffect` never runs out. -/
def compressBlocks : Nat → State → State
  | 0, s => s
  | fuel + 1, s => if 16 * s.BP.toNat < s.WLEN.toNat then compressBlocks fuel (compressEffect s) else s

/-- What HASH does once its check has passed (R174): INIT, PAD, TOWORDS, COMPRESS for each block, DIGEST. -/
def hashEffect (s : State) : State :=
  let ready := toWordsEffect (padEffect (initEffect s))
  digestEffect (compressBlocks (ready.WLEN.toNat / 16) ready)

/-- HASH (R174). -/
def execHash (s : State) : Host.Outcome State Fault Refusal :=
  if s.LEN.toNat > s.cfg.msgCap then raise .capacityError 0x0E s
  else respondOk (hashEffect s)

/-- Block `i` of a word sequence: `words[16i .. 16i + 16)` (R175). -/
def blockOf (words : List Word) (i : Nat) : List Word := (words.drop (16 * i)).take 16

/-- `s_n` of R175: the running state after the blocks 0 to `n - 1`. -/
def foldBlocks (words : List Word) : Nat → List Word
  | 0 => H0
  | n + 1 => compress (foldBlocks words n) (blockOf words n)

/-- `hash(m)` (R175): the SHA-256 digest of a byte sequence. -/
def sha256 (m : List Byte) : List Byte :=
  let words := groupWords (pad m)
  toBytes (foldBlocks words (words.length / 16))

end Sys2Proof.Machine
end

