-- ==== Sys2Proof/Machine/Dispatch.lean ====
section
/-! DEFINITION. The commands' dispatch: one arm per constructor of `Instr` (30_encoding.md rule R91), each a direct call of its
meaning. -/

namespace Sys2Proof.Machine

-- "perform the command whose op is c[7:0]" (R92)
def exec (i : Instr) (s : State) : Host.Outcome State Fault Refusal :=
  match i with
  | .init => Sys2Proof.Machine.execInit s
  | .pad => Sys2Proof.Machine.execPad s
  | .towords => Sys2Proof.Machine.execToWords s
  | .tobytes => Sys2Proof.Machine.execToBytes s
  | .loadblk => Sys2Proof.Machine.execLoadBlk s
  | .sched => Sys2Proof.Machine.execSched s
  | .expand => Sys2Proof.Machine.execExpand s
  | .loadv => Sys2Proof.Machine.execLoadV s
  | .round => Sys2Proof.Machine.execRound s
  | .rounds => Sys2Proof.Machine.execRounds s
  | .addback => Sys2Proof.Machine.execAddBack s
  | .compress => Sys2Proof.Machine.execCompress s
  | .digest => Sys2Proof.Machine.execDigest s
  | .hash => Sys2Proof.Machine.execHash s

end Sys2Proof.Machine
end

