-- ==== Sys2Proof/WellFormed.lean ====
section
/-! DEFINITION. Which terms of Syntax.lean the spec gives a meaning. A command has no operand (R93), so every
`Instr` is well formed and there is nothing to check; what can be ill formed is a transaction record (30_encoding.md
rule R96). The checks on the state's own data (canonical memories, counter ranges) are `Memory.wf` and `State.Inv`. -/

namespace Sys2Proof

/-- "space | 0 to 15" (R96); a larger number "does not exist in a transaction record" (93_implementation_defined.md
U11), whose treatment is to refuse it. -/
def Txn.spaceOk : Txn → Bool
  | .read space _ _ => decide (space < 16)
  | .write space _ _ _ => decide (space < 16)

/-- "data | a value of `width` bits" (R96). -/
def Txn.dataOk : Txn → Bool
  | .read _ _ _ => true
  | .write _ _ width data => decide (data < 2 ^ width)

/-- A transaction record of rule R96. The width is NOT restricted to 8 and 32 here: R65 gives every other width an
outcome, "A transaction of any other width raises BusError" (log entry 7). -/
def Txn.wellFormed (t : Txn) : Bool := t.spaceOk && t.dataOk

/-- An event the engine takes: a well-formed transaction, or the reset event. -/
def HostEvent.wellFormed : HostEvent → Bool
  | .txn t => t.wellFormed
  | .reset => true

end Sys2Proof
end

