-- ==== Sys2Proof/Machine/Bus.lean ====
section
/-! DEFINITION. Host transactions (20_memory.md rules R60 to R65, 10_state.md rule R38), the command port (30_encoding.md rule R92) and
the reset event (70_reset_and_hazards.md rule R220): what one host event does. -/

namespace Sys2Proof.Machine

/-- The space a number names (R60); `none` is a reserved space. -/
def spaceOf : Nat → Option Space
  | 0 => some .csr
  | 1 => some .h
  | 2 => some .v
  | 3 => some .w
  | 4 => some .dig
  | 5 => some .msg
  | 6 => some .pmb
  | 7 => some .wseq
  | _ => none

/-- The number of cells of a space (R60). -/
def cellCount (c : Config) : Space → Nat
  | .csr => 12
  | .h => 8
  | .v => 8
  | .w => 64
  | .dig => 32
  | .msg => c.msgCap
  | .pmb => pmbCap c
  | .wseq => wseqCap c

/-- The cell width of a space in bits (R60, R65). -/
def cellWidth : Space → Nat
  | .csr => 32
  | .h => 32
  | .v => 32
  | .w => 32
  | .dig => 8
  | .msg => 8
  | .pmb => 8
  | .wseq => 32

/-- Whether the host may write the cell (R60, R38): V, W and DIG are read only, and of the CSR cells TS and TR. Every
cell may be read (R62). -/
def cellWritable (sp : Space) (off : Nat) : Bool :=
  match sp with
  | .csr => decide (off < 10)
  | .h => true
  | .v => false
  | .w => false
  | .dig => false
  | .msg => true
  | .pmb => true
  | .wseq => true

/-- The space and cell an access may go to, after the checks that reads and writes share, in their order: reserved
space, offset outside the space, width not the cell width (R62, R63, R64). `none` is a BusError. -/
def admitted (c : Config) (space off width : Nat) : Option Space :=
  match spaceOf space with
  | none => none
  | some sp => if off ≥ cellCount c sp then none else if width ≠ cellWidth sp then none else some sp

/-- What a CSR cell reads as (R38): CMD reads as 0 (R32), bits 31:7 of TS and TR read as 0. -/
def csrRead (s : State) : Nat → Word
  | 0 => 0
  | 1 => s.ERR
  | 2 => low32 s.LEN
  | 3 => high32 s.LEN
  | 4 => low32 s.PLEN
  | 5 => high32 s.PLEN
  | 6 => low32 s.WLEN
  | 7 => high32 s.WLEN
  | 8 => low32 s.BP
  | 9 => high32 s.BP
  | 10 => s.TS.zeroExtend 32
  | 11 => s.TR.zeroExtend 32
  | _ => 0

/-- A write to a CSR cell other than CMD (R38, R63): any write to ERR clears it, the others replace the named half. -/
def csrWrite (s : State) (v : Word) : Nat → State
  | 1 => clearErr s
  | 2 => { s with LEN := setLow32 s.LEN v }
  | 3 => { s with LEN := setHigh32 s.LEN v }
  | 4 => { s with PLEN := setLow32 s.PLEN v }
  | 5 => { s with PLEN := setHigh32 s.PLEN v }
  | 6 => { s with WLEN := setLow32 s.WLEN v }
  | 7 => { s with WLEN := setHigh32 s.WLEN v }
  | 8 => { s with BP := setLow32 s.BP v }
  | 9 => { s with BP := setHigh32 s.BP v }
  | _ => s

/-- The content of a cell as the response `OK(v)` of a read (R62, R43). -/
def cellRead (s : State) (sp : Space) (off : Nat) : Response :=
  match sp with
  | .csr => .ok32 (csrRead s off)
  | .h => .ok32 (s.readH off)
  | .v => .ok32 (s.readV off)
  | .w => .ok32 (s.readW off)
  | .dig => .ok8 (s.readDig off)
  | .msg => .ok8 (s.readMsg off)
  | .pmb => .ok8 (s.readPmb off)
  | .wseq => .ok32 (s.readWseq off)

/-- `BusRead(S, off, n)` (R62). No architectural state changes; every read is a draw (log entry 12). -/
def busRead (space off width : Nat) (s : State) : Host.Outcome State Fault Refusal :=
  match admitted s.cfg space off width with
  | none => raise .busError 0 s
  | some sp => .next (s.nextDraw.respond (cellRead s sp off))

/-- A write to CMD: decode the value and perform the command (R92, R32). -/
def command (c : Word) (s : State) : Host.Outcome State Fault Refusal :=
  match decode c with
  | .ok i => exec i s
  | .error (.illegalCommand op) => raise .illegalCommand op s

/-- The cell gets `data` (R63), for the cells that are not CSR cells. -/
def cellWrite (s : State) (sp : Space) (off data : Nat) : State :=
  match sp with
  | .csr => csrWrite s (BitVec.ofNat 32 data) off
  | .h => { s with H := RegFile.write s.H off (BitVec.ofNat 32 data) }
  | .v => s
  | .w => s
  | .dig => s
  | .msg => { s with MSG := Memory.write s.MSG off (BitVec.ofNat 8 data) }
  | .pmb => { s with PMB := Memory.write s.PMB off (BitVec.ofNat 8 data) }
  | .wseq => { s with WSEQ := Memory.write s.WSEQ off (BitVec.ofNat 32 data) }

/-- `BusWrite(S, off, n, v)` (R63). -/
def busWrite (space off width data : Nat) (s : State) : Host.Outcome State Fault Refusal :=
  match admitted s.cfg space off width with
  | none => raise .busError 0 s
  | some sp =>
    if cellWritable sp off = false then raise .busError 0 s
    else if sp = .csr ∧ off = 0 then command (BitVec.ofNat 32 data) s
    else respondOk (cellWrite s sp off data)

/-- One host transaction, performed completely (R16, R70). -/
def transact (t : Txn) (s : State) : Host.Outcome State Fault Refusal :=
  match t with
  | .read space off width => busRead space off width s
  | .write space off width data => busWrite space off width data s

/-- One host event: a transaction record, or the reset event (R16, R220). What is no record of R96 is refused
(93_implementation_defined.md U11). -/
def hostEvent (e : HostEvent) (s : State) : Host.Outcome State Fault Refusal :=
  if e.wellFormed = false then .refused .notATransaction
  else
    match e with
    | .txn t => transact t s
    | .reset => .next (takeReset s)

/-- The transaction that gives the engine a command word: `wr CSR.CMD, c` (R90, R98). -/
def cmdWrite (c : Word) : Txn := .write 0 0 32 c.toNat

/-- The word an opcode-table row's number stands for: its `nbits` bits, all bits above them 0 (R95). -/
def tableWord (nbits w : Nat) : Word := BitVec.ofNat 32 (w % 2 ^ nbits)

end Sys2Proof.Machine
end

