-- ==== Sys2Proof/Machine/Step.lean ====
section
/-! DEFINITION. One step of the machine: one host event performed completely (00_scope.md rule R16). -/

namespace Sys2Proof.Machine

/-- "One step of the machine is one host transaction ... performed completely" (R16). The step takes the oldest pending
event. With none pending the engine, which "never acts on its own" (R16), "holds its state and does nothing" (R210, log entry 9). -/
def step (s : State) : Host.Outcome State Fault Refusal :=
  match s.pending with
  | [] => .next s
  | e :: rest => hostEvent e { s with pending := rest }

/-- `s` with the command word of an opcode-table row as the data of the next host transaction, a write to CMD: the
engine fetches nothing, "A command is the data of the CMD write that carries it" (R40, R78; log entry 4). -/
def State.withFetchWord (s : State) (nbits w : Nat) : State :=
  { s with pending := .txn (cmdWrite (tableWord nbits w)) :: s.pending }

end Sys2Proof.Machine
end

