-- ==== Sys2Proof/Safety.lean ====
section
/-! DEFINITION. What counts as a legal state and as a safe step, in the terms the statements use. -/

namespace Sys2Proof.Machine

/-- The invariants of every reachable state: those of 10_state.md rule R41 (`16 <= TS <= 64`, `0 <= TR <= 64`,
`ERR[31:16] = 0`, `ERR[7:0]` is 0 or a cause code 1 to 6), the bound of 00_scope.md rule R6 on the parameter, and the
form of the three memories: offsets strictly rising, each a cell of its space (R60). -/
structure State.Inv (s : State) : Prop where
  cfg_wf : s.cfg.wf = true
  ts_ge : 16 ≤ s.TS.toNat
  ts_le : s.TS.toNat ≤ 64
  tr_le : s.TR.toNat ≤ 64
  err_reserved : errReserved s.ERR = 0
  err_cause : (errCause s.ERR).toNat ≤ 6
  msg_wf : Memory.wf s.MSG = true
  msg_below : Memory.below s.cfg.msgCap s.MSG = true
  pmb_wf : Memory.wf s.PMB = true
  pmb_below : Memory.below (pmbCap s.cfg) s.PMB = true
  wseq_wf : Memory.wf s.WSEQ = true
  wseq_below : Memory.below (wseqCap s.cfg) s.WSEQ = true

/-- The part of rule R29 ("W[0 .. TS) hold the schedule of the current block") and of rule R30 that says which registers
have been written: while words remain to be computed, W[0 .. TS) have been written; while rounds remain, V has. -/
structure State.Loaded (s : State) : Prop where
  schedule : s.TS.toNat < 64 → ∀ i, i < s.TS.toNat → (RegFile.content s.W i).isSome = true
  working : s.TR.toNat < 64 → ∀ i, i < 8 → (RegFile.content s.V i).isSome = true

/-- Every event the host has pending is one the spec admits (30_encoding.md rule R96). -/
def State.hostOk (s : State) : Bool := s.pending.all HostEvent.wellFormed

/-- A step that neither faults nor is refused. -/
def Completes (o : Host.Outcome State Fault Refusal) : Prop := ∃ t, o = .next t

/-- A run whose errors, if any, the record has not lost: "A program that wants to know that none of its transactions
failed reads ERR at its end and compares it with 0" (60_exceptions.md rule R201). -/
def State.clean (s : State) : Bool := decide (s.ERR = 0)

end Sys2Proof.Machine
end

