-- ==== Sys2Proof/Certificates/Slice0/Obligations.lean ====
section
/-! DEFINITION. The statements about the model, from the numbered rules of the spec. A cell's or register's CONTENT is
`some v` once something has written `v` to it and `none` while it is unspecified (10_state.md rule R43); a statement about a free
value (the `draws` field, log entry 3) holds for every value of that field. -/

open Sys2Proof Sys2Proof.Machine

namespace Sys2Proof.Claims

/-- The codes of the causes, written out from the table of 60_exceptions.md rule R191. -/
def causeNumber : Cause → Byte
  | .invalidLength => 1
  | .capacityError => 2
  | .illegalCommand => 3
  | .sequenceError => 4
  | .blockRangeError => 5
  | .busError => 6

/-- The errors of the commands, from the table of 60_exceptions.md rule R191 and the priority of rule R198. -/
def raises (i : Instr) (s : State) : Cause → Prop
  | .invalidLength => i = .towords ∧ s.PLEN.toNat ≤ pmbCap s.cfg ∧ s.PLEN.toNat % 4 ≠ 0
  | .capacityError =>
    ((i = .pad ∨ i = .hash) ∧ s.LEN.toNat > s.cfg.msgCap) ∨
    (i = .towords ∧ s.PLEN.toNat > pmbCap s.cfg) ∨
    (i = .tobytes ∧ s.WLEN.toNat > wseqCap s.cfg)
  | .illegalCommand => False
  | .sequenceError =>
    (i = .sched ∧ s.TS.toNat = 64) ∨
    (i = .round ∧ (s.TR.toNat = 64 ∨ s.TR.toNat ≥ s.TS.toNat)) ∨
    (i = .rounds ∧ s.TS.toNat ≠ 64) ∨
    (i = .addback ∧ s.TR.toNat ≠ 64)
  | .blockRangeError =>
    (i = .loadblk ∨ i = .compress) ∧ (s.WLEN.toNat > wseqCap s.cfg ∨ 16 * s.BP.toNat + 16 > s.WLEN.toNat)
  | .busError => False

/-- Cell width and number of cells of the spaces 0 to 7, from the table of 20_memory.md rule R60. -/
def spaceTable (c : Config) : List (Nat × Nat) :=
  [(32, 12), (32, 8), (32, 8), (32, 64), (8, 32), (8, c.msgCap), (8, 64 * ((c.msgCap + 72) / 64)),
   (32, 64 * ((c.msgCap + 72) / 64) / 4)]

/-- What 60_exceptions.md rule R197 refuses of every access: "space 8 to 15; offset at or above the number of cells of
the space; access width different from the cell width". -/
def accessRefused (c : Config) (space off width : Nat) : Prop :=
  8 ≤ space ∨ ∃ w n, (spaceTable c)[space]? = some (w, n) ∧ (n ≤ off ∨ width ≠ w)

/-- What rule R197 refuses of a transaction: besides, "write to a cell of V, W or DIG or to CSR.TS or CSR.TR". -/
def busRefused (c : Config) : Txn → Prop
  | .read space off width => accessRefused c space off width
  | .write space off width _ =>
    accessRefused c space off width ∨ space = 2 ∨ space = 3 ∨ space = 4 ∨ (space = 0 ∧ (off = 10 ∨ off = 11))

/-- The CSR cells as a host reads them, offset 0 first, from the table of 10_state.md rule R38. -/
def csrCells (s : State) : List Word :=
  [0, s.ERR, s.LEN.setWidth 32, (s.LEN >>> 32).setWidth 32, s.PLEN.setWidth 32, (s.PLEN >>> 32).setWidth 32,
   s.WLEN.setWidth 32, (s.WLEN >>> 32).setWidth 32, s.BP.setWidth 32, (s.BP >>> 32).setWidth 32,
   s.TS.setWidth 32, s.TR.setWidth 32]

/-- The response a read of a cell gives, where the cell holds a value: `none` for an unspecified cell and for an offset
that names no cell. -/
def cellContent (s : State) (space off : Nat) : Option Response :=
  match space with
  | 0 => (csrCells s)[off]?.map .ok32
  | 1 => (RegFile.content s.H off).map .ok32
  | 2 => (RegFile.content s.V off).map .ok32
  | 3 => (RegFile.content s.W off).map .ok32
  | 4 => (RegFile.content s.DIG off).map .ok8
  | 5 => (Memory.content s.MSG off).map .ok8
  | 6 => (Memory.content s.PMB off).map .ok8
  | 7 => (Memory.content s.WSEQ off).map .ok32
  | _ => none

/-- The response `OK(v)` with the value `data` in a cell of `width` bits. -/
def dataResponse (width data : Nat) : Response :=
  if width = 8 then .ok8 (BitVec.ofNat 8 data) else .ok32 (BitVec.ofNat 32 data)

/-- H[0..7] hold the words `ws`, in order. -/
def holdsWords {n : Nat} (f : RegFile 32 n) (ws : List Word) : Prop := ∀ i, i < n → RegFile.content f i = ws[i]?

/-- The pieces of state of the access matrix (10_state.md rule R44). -/
inductive Piece where
  | H | V | W | DIG | LEN | PLEN | WLEN | BP | TS | TR | MSG | PMB | WSEQ
deriving DecidableEq, Repr

/-- The pieces with a `w` or `rw` in the command's row of the matrix of rule R44. -/
def written : Instr → List Piece
  | .init => [.H, .BP]
  | .pad => [.PLEN, .PMB]
  | .towords => [.WLEN, .WSEQ]
  | .tobytes => [.PLEN, .PMB]
  | .loadblk => [.W, .TS]
  | .sched => [.W, .TS]
  | .expand => [.W, .TS]
  | .loadv => [.V, .TR]
  | .round => [.V, .TR]
  | .rounds => [.V, .TR]
  | .addback => [.H]
  | .compress => [.H, .V, .W, .BP, .TS, .TR]
  | .digest => [.DIG]
  | .hash => [.H, .V, .W, .DIG, .PLEN, .WLEN, .BP, .TS, .TR, .PMB, .WSEQ]

/-- Piece `p` is the same in two states. -/
def samePiece (s t : State) : Piece → Prop
  | .H => t.H = s.H
  | .V => t.V = s.V
  | .W => t.W = s.W
  | .DIG => t.DIG = s.DIG
  | .LEN => t.LEN = s.LEN
  | .PLEN => t.PLEN = s.PLEN
  | .WLEN => t.WLEN = s.WLEN
  | .BP => t.BP = s.BP
  | .TS => t.TS = s.TS
  | .TR => t.TR = s.TR
  | .MSG => t.MSG = s.MSG
  | .PMB => t.PMB = s.PMB
  | .WSEQ => t.WSEQ = s.WSEQ

/-- The command `i` given `n` times, each time answering OK: the states before, between and after. -/
def repeatOk (i : Instr) : Nat → State → State → Prop
  | 0, s, t => t = s
  | n + 1, s, t => ∃ u, exec i s = .next u ∧ u.response = some .ok ∧ repeatOk i n u t

end Sys2Proof.Claims

open Sys2Proof.Claims

/-! ### Encoding and decoding -/

/-- Decoding and encoding agree on every 32-bit value and every command (30_encoding.md R91, R92). -/
def Obligations.DecodeAndEncodeAgree : Prop :=
  ∀ (c : Word) (i : Instr), decode c = .ok i ↔ encode i = c

/-- 30_encoding.md R92: "The decoder is total: every 32-bit value either selects exactly one of the fourteen commands
or raises IllegalCommand." The host's 32-bit write of the value to CMD (20_memory.md R63) does exactly that. -/
def Obligations.EveryValueIsACommandOrIllegal : Prop :=
  ∀ (c : Word) (s : State),
    transact (.write 0 0 32 c.toNat) s = command c s ∧
    (c.extractLsb' 8 24 ≠ 0 →
      transact (.write 0 0 32 c.toNat) s = raise .illegalCommand (c.extractLsb' 0 8) s) ∧
    ((c.extractLsb' 0 8).toNat = 0x00 ∨ (c.extractLsb' 0 8).toNat ≥ 0x0F →
      transact (.write 0 0 32 c.toNat) s = raise .illegalCommand (c.extractLsb' 0 8) s) ∧
    (c.extractLsb' 8 24 = 0 → 0x01 ≤ (c.extractLsb' 0 8).toNat → (c.extractLsb' 0 8).toNat ≤ 0x0E →
      ∃ i, decode c = .ok i ∧ opcode i = c.extractLsb' 0 8 ∧ transact (.write 0 0 32 c.toNat) s = exec i s ∧
        ∀ j, opcode j = c.extractLsb' 0 8 → j = i)

/-- The rows of the opcode table (R91), each word written out. -/
def Obligations.TableWordsDecodeToTheirCommands : Prop :=
  decode 0x00000001 = .ok .init ∧ decode 0x00000002 = .ok .pad ∧ decode 0x00000003 = .ok .towords ∧
  decode 0x00000004 = .ok .tobytes ∧ decode 0x00000005 = .ok .loadblk ∧ decode 0x00000006 = .ok .sched ∧
  decode 0x00000007 = .ok .expand ∧ decode 0x00000008 = .ok .loadv ∧ decode 0x00000009 = .ok .round ∧
  decode 0x0000000A = .ok .rounds ∧ decode 0x0000000B = .ok .addback ∧ decode 0x0000000C = .ok .compress ∧
  decode 0x0000000D = .ok .digest ∧ decode 0x0000000E = .ok .hash

/-! ### Steps, reset and the host interface -/

/-- A step with a transaction pending performs exactly that transaction (00_scope.md R16, 20_memory.md R70), and a write
to CMD of a command word is that command (10_state.md R32). The pending queue is the model's form of the host's
transactions (log entry 4). -/
def Obligations.StepRunsTheDecodedCommand : Prop :=
  (∀ (s : State) (tx : Txn) (rest : List HostEvent), s.pending = .txn tx :: rest → tx.wellFormed = true →
    step s = transact tx { s with pending := rest }) ∧
  (∀ (s : State) (c : Word) (i : Instr) (rest : List HostEvent),
    s.pending = .txn (.write 0 0 32 c.toNat) :: rest → decode c = .ok i →
      step s = exec i { s with pending := rest })

/-- With no host event the engine "holds its state and does nothing" (60_exceptions.md R210, 00_scope.md R16). That step is
defined there at all is the model's choice (log entry 9). -/
def Obligations.IdleEngineHoldsItsState : Prop :=
  ∀ s : State, s.pending = [] → step s = .next s

/-- The state after the reset event, and the state the machine starts in (10_state.md R42). The mark of an unspecified
cell (log entries 1, 3), the queue (log entry 4) and that the event keeps the queue (log entry 10) are the model's choice. -/
def Obligations.ResetEventGivesTheResetState : Prop :=
  (∀ (s : State) (rest : List HostEvent), s.pending = .reset :: rest →
    ∃ t, step s = .next t ∧ t.cfg = s.cfg ∧ t.pending = rest ∧
      t.LEN = 0 ∧ t.PLEN = 0 ∧ t.WLEN = 0 ∧ t.BP = 0 ∧ t.TS = 64 ∧ t.TR = 64 ∧ t.ERR = 0 ∧
      (∀ i, RegFile.content t.H i = none) ∧ (∀ i, RegFile.content t.V i = none) ∧
      (∀ i, RegFile.content t.W i = none) ∧ (∀ i, RegFile.content t.DIG i = none) ∧
      (∀ i, Memory.content t.MSG i = none) ∧ (∀ i, Memory.content t.PMB i = none) ∧
      (∀ i, Memory.content t.WSEQ i = none)) ∧
  (State.reset.LEN = 0 ∧ State.reset.PLEN = 0 ∧ State.reset.WLEN = 0 ∧ State.reset.BP = 0 ∧ State.reset.TS = 64 ∧
    State.reset.TR = 64 ∧ State.reset.ERR = 0 ∧
    (∀ i, RegFile.content State.reset.H i = none) ∧ (∀ i, RegFile.content State.reset.V i = none) ∧
    (∀ i, RegFile.content State.reset.W i = none) ∧ (∀ i, RegFile.content State.reset.DIG i = none) ∧
    (∀ i, Memory.content State.reset.MSG i = none) ∧ (∀ i, Memory.content State.reset.PMB i = none) ∧
    (∀ i, Memory.content State.reset.WSEQ i = none))

/-- What each command answers directly after reset, for every capacity (70_reset_and_hazards.md R221). -/
def Obligations.CommandsRightAfterReset : Prop :=
  ∀ c : Config,
    (∃ t, exec .sched (.resetWith c) = .next t ∧ t.response = some (.err .sequenceError) ∧ t.ERR = 0x00000604) ∧
    (∃ t, exec .round (.resetWith c) = .next t ∧ t.response = some (.err .sequenceError) ∧ t.ERR = 0x00000904) ∧
    (∃ t, exec .loadblk (.resetWith c) = .next t ∧ t.response = some (.err .blockRangeError) ∧ t.ERR = 0x00000505) ∧
    (∃ t, exec .compress (.resetWith c) = .next t ∧ t.response = some (.err .blockRangeError) ∧ t.ERR = 0x00000C05) ∧
    (∃ t, exec .addback (.resetWith c) = .next t ∧ t.response = some .ok) ∧
    (∃ t, exec .rounds (.resetWith c) = .next t ∧ t.response = some .ok) ∧
    (∃ t, exec .expand (.resetWith c) = .next t ∧ t.response = some .ok)

/-- No step stops on what a host can issue: the only refusal is of a pending record that is no record of
30_encoding.md R96 (93_implementation_defined.md U11; log entry 13). -/
def Obligations.NoAdmissibleEventStopsTheEngine : Prop :=
  (∀ s : State, s.hostOk = true → ∃ t, step s = .next t ∧ t.hostOk = true) ∧
  (∀ (s : State) (e : HostEvent) (rest : List HostEvent), s.pending = e :: rest → e.wellFormed = false →
    step s = .refused .notATransaction)

/-- "None of them changes while the engine runs" (10_state.md R45), and a step takes exactly one host event (the
queue is the model's, log entry 4). -/
def Obligations.StepsKeepTheParameterAndTakeOneEvent : Prop :=
  ∀ s t : State, step s = .next t → t.cfg = s.cfg ∧ t.pending = s.pending.tail

/-! ### Invariants -/

/-- The invariants of R41, and of what is loaded, in the reset state of an engine of every capacity 00_scope.md R6
admits, and so in `State.reset` (whose capacity is the model's choice, log entry 2). -/
def Obligations.InvariantsHoldAtReset : Prop :=
  (∀ c : Config, c.wf = true → (State.resetWith c).Inv ∧ (State.resetWith c).Loaded) ∧
  State.reset.Inv ∧ State.reset.Loaded

/-- Every step keeps the invariants of 10_state.md R41 and the form of the three memories, from every state. -/
def Obligations.EveryStepKeepsTheInvariant : Prop :=
  ∀ s t : State, s.Inv → step s = .next t → t.Inv

/-- Every step keeps: while schedule words remain (TS < 64), W[0 .. TS) is written (R29); while rounds remain (TR < 64),
V is (R30). With TS = 64 it says nothing of W, which after reset may be unwritten: INIT, LOADV and ROUND after reset are
accepted, and that ROUND consumes an unspecified W[0] (R43). -/
def Obligations.EveryStepKeepsWhatIsLoaded : Prop :=
  ∀ s t : State, s.Inv → s.Loaded → step s = .next t → t.Loaded

/-! ### Errors -/

/-- 60_exceptions.md R199: error entry, with the six cause codes as the numbers of the table of R191. -/
def Obligations.RaiseRecordsTheFirstError : Prop :=
  ∀ (c : Cause) (op : Byte) (s : State),
    raise c op s =
      .next { s with
        ERR := if s.ERR = 0 then (op.zeroExtend 32 <<< 8) ||| (causeNumber c).zeroExtend 32 else s.ERR
        response := some (.err c) } ∧
    errReserved (errWord c op) = 0 ∧ errOp (errWord c op) = op ∧ errCause (errWord c op) = causeNumber c

/-- 60_exceptions.md R200: "a transaction that raises an error writes no state other than ERR". -/
def Obligations.ErrorsWriteOnlyErr : Prop :=
  ∀ (s t : State) (c : Cause), s.pending ≠ [] → step s = .next t → t.response = some (.err c) →
    ∃ e, t = { s with ERR := e, response := some (.err c), pending := s.pending.tail } ∧ (s.ERR ≠ 0 → e = s.ERR)

/-- The commands' errors are exactly those of R191, in the priority of R198, and record the command's opcode byte and the cause's number; a
command that raises none responds OK and leaves ERR (R201: no command clears it). -/
def Obligations.CommandsRaiseExactlyTheirErrors : Prop :=
  ∀ (i : Instr) (s : State), ∃ t, exec i s = .next t ∧
    (∀ c, t.response = some (.err c) ↔ raises i s c) ∧
    (∀ c, raises i s c →
      t.ERR = if s.ERR = 0 then ((opcode i).zeroExtend 32 <<< 8) ||| (causeNumber c).zeroExtend 32 else s.ERR) ∧
    ((∀ c, ¬ raises i s c) → t.response = some .ok ∧ t.ERR = s.ERR)

/-- A recorded error stays until the host writes ERR or the engine is reset (60_exceptions.md R201, R202). -/
def Obligations.OnlyErrWriteOrResetClearsTheRecord : Prop :=
  ∀ s t : State, step s = .next t → s.ERR ≠ 0 → t.ERR ≠ s.ERR →
    t.ERR = 0 ∧ ∃ rest, s.pending = .reset :: rest ∨ ∃ d, s.pending = .txn (.write 0 1 32 d) :: rest

/-- A host write to ERR clears it "whatever v is" (60_exceptions.md R201, 20_memory.md R63). -/
def Obligations.WriteToErrClearsIt : Prop :=
  ∀ (s : State) (d : Nat), transact (.write 0 1 32 d) s = .next { s with ERR := 0, response := some .ok }

/-- 60_exceptions.md R197: when a transaction raises BusError, and what is then recorded. -/
def Obligations.BusErrorExactlyWhenRefused : Prop :=
  ∀ (tx : Txn) (s : State), tx.wellFormed = true → ∃ t, transact tx s = .next t ∧
    (t.response = some (.err .busError) ↔ busRefused s.cfg tx) ∧
    (busRefused s.cfg tx →
      t = { s with ERR := if s.ERR = 0 then 0x00000006 else s.ERR, response := some (.err .busError) })

/-! ### Host reads and writes -/

/-- A read returns what the cell holds, and changes no architectural state (20_memory.md R62, R69; 10_state.md R38). -/
def Obligations.ReadReturnsWhatTheCellHolds : Prop :=
  ∀ (s : State) (space off width n : Nat) (r : Response), (spaceTable s.cfg)[space]? = some (width, n) → off < n →
    cellContent s space off = some r →
      transact (.read space off width) s = .next { s with response := some r, draws := s.draws + 1 }

/-- A read of a cell never written since reset is a free draw of the cell's width; it raises nothing and the next read
is another draw (10_state.md R43; log entry 3). -/
def Obligations.ReadOfUnwrittenCellIsAFreeDraw : Prop :=
  ∀ (s : State) (space off width n : Nat), (spaceTable s.cfg)[space]? = some (width, n) → off < n →
    cellContent s space off = none →
      transact (.read space off width) s =
        .next { s with
          response := some (if width = 8 then .ok8 (Config.freeByte s.draws space off)
            else .ok32 (Config.freeWord s.draws space off))
          draws := s.draws + 1 }

/-- "A write to a cell other than CMD and ERR changes that cell and nothing else" (20_memory.md R63, R68). -/
def Obligations.WriteChangesOneCellOnly : Prop :=
  ∀ (s : State) (space off width n data : Nat), (spaceTable s.cfg)[space]? = some (width, n) → off < n →
    data < 2 ^ width → ¬ busRefused s.cfg (.write space off width data) → ¬ (space = 0 ∧ off ≤ 1) →
      ∃ t, transact (.write space off width data) s = .next t ∧ t.response = some .ok ∧
        cellContent t space off = some (dataResponse width data) ∧
        (∀ space' off', ¬ (space' = space ∧ off' = off) → cellContent t space' off' = cellContent s space' off') ∧
        t.cfg = s.cfg ∧ t.pending = s.pending ∧ t.draws = s.draws

/-- "a read returns the last value written" (20_memory.md R69, R75): a write to a plain cell, then a read of it. -/
def Obligations.ReadAfterWriteReturnsTheValue : Prop :=
  ∀ (s t : State) (space off width data : Nat), data < 2 ^ width → ¬ (space = 0 ∧ off ≤ 1) →
    transact (.write space off width data) s = .next t → t.response = some .ok →
      ∃ u, transact (.read space off width) t = .next u ∧ u.response = some (dataResponse width data)

/-! ### What no command touches -/

/-- The access matrix of 10_state.md R44: a command leaves every piece of state it has no `w` for as it was, and never
the parameter or the host's queue (log entry 4). -/
def Obligations.CommandsWriteOnlyTheirPieces : Prop :=
  ∀ (i : Instr) (s t : State), exec i s = .next t →
    (∀ p, p ∉ written i → samePiece s t p) ∧ t.cfg = s.cfg ∧ t.pending = s.pending

/-! ### The functions -/

/-- 40_padding.md R110: the number of zero bytes. -/
def Obligations.ZeroFillIsTheDoubleModuloForm : Prop :=
  ∀ L : Nat, zeroFill L = (64 - (L + 9) % 64) % 64 ∧ (L + 1 + zeroFill L + 8) % 64 = 0 ∧ zeroFill L ≤ 63 ∧
    ((L + 9) % 64 = 0 → zeroFill L = 0) ∧ (zeroFill L : Int) = (55 - (L : Int)) % 64 ∧
    L + 9 + zeroFill L = 64 * ((L + 72) / 64)

/-- 40_padding.md R113: the properties of `pad` the document lists as testable. -/
def Obligations.PadHasItsTestableProperties : Prop :=
  ∀ m : List Byte,
    ((pad m).length * 8) % 512 = 0 ∧ (pad m).length % 64 = 0 ∧
    (pad m)[m.length]? = some 0x80 ∧
    (∀ i, m.length < i → i < (pad m).length - 8 → (pad m)[i]? = some 0x00) ∧
    (m.length ≤ 2 ^ 61 - 1 →
      ((pad m).drop ((pad m).length - 8)).foldl (fun v b => v * 256 + b.toNat) 0 = m.length * 8) ∧
    (pad m).take m.length = m ∧
    (pad m).length % 4 = 0 ∧
    (∃ ws, toWords (pad m) = some ws ∧ ws.length % 16 = 0)

/-- 41_word_reorder.md R122: the round trip and the conversion failure. -/
def Obligations.WordReorderRoundTrip : Prop :=
  (∀ ws : List Word, toWords (toBytes ws) = some ws) ∧
  (∀ bs : List Byte, bs.length % 4 = 0 → ∃ ws, toWords bs = some ws ∧ toBytes ws = bs) ∧
  (∀ bs : List Byte, bs.length % 4 ≠ 0 → toWords bs = none)

/-- 41_word_reorder.md R120 and R121: the two functions, byte by byte. -/
def Obligations.WordReorderIsBigEndian : Prop :=
  (∀ (bs : List Byte) (ws : List Word), toWords bs = some ws →
    ws.length = bs.length / 4 ∧ ∀ i, i < bs.length / 4 →
      ∃ b0 b1 b2 b3 w, bs[4 * i]? = some b0 ∧ bs[4 * i + 1]? = some b1 ∧ bs[4 * i + 2]? = some b2 ∧
        bs[4 * i + 3]? = some b3 ∧ ws[i]? = some w ∧
        w.toNat = b0.toNat * 2 ^ 24 + b1.toNat * 2 ^ 16 + b2.toNat * 2 ^ 8 + b3.toNat) ∧
  (∀ bs : List Byte, toWords bs = none ↔ bs.length % 4 ≠ 0) ∧
  (∀ ws : List Word, (toBytes ws).length = 4 * ws.length ∧ ∀ (i : Nat) (w : Word), ws[i]? = some w →
    (toBytes ws)[4 * i]? = some (w.extractLsb' 24 8) ∧ (toBytes ws)[4 * i + 1]? = some (w.extractLsb' 16 8) ∧
    (toBytes ws)[4 * i + 2]? = some (w.extractLsb' 8 8) ∧ (toBytes ws)[4 * i + 3]? = some (w.extractLsb' 0 8))

/-- 00_scope.md R11: "Bit `i` of the result is bit `(i + n) mod 32` of `x`", for the amounts 1 to 31; and of the
shift of R12, bit `i` is bit `i + n`, the high bits 0. -/
def Obligations.RotationAndShiftBitByBit : Prop :=
  ∀ (x : Word) (n i : Nat), i < 32 →
    (1 ≤ n → n ≤ 31 → (rotr x n).getLsbD i = x.getLsbD ((i + n) % 32)) ∧
    (shr x n).getLsbD i = (decide (i + n < 32) && x.getLsbD (i + n)) ∧ (shr x n).toNat = x.toNat / 2 ^ n

/-- 43_compressor.md R140 and R141 bit by bit: Ch chooses, Maj is "the value held by at least two of the three". -/
def Obligations.ChAndMajBitByBit : Prop :=
  ∀ (x y z : Word) (i : Nat), i < 32 →
    (ch x y z).getLsbD i = (if x.getLsbD i then y.getLsbD i else z.getLsbD i) ∧
    ((maj x y z).getLsbD i = true ↔
      2 ≤ (x.getLsbD i).toNat + (y.getLsbD i).toNat + (z.getLsbD i).toNat)

/-- 42_scheduler.md R132: the schedule of a block. -/
def Obligations.ScheduleFollowsTheRecurrence : Prop :=
  ∀ blk : List Word, blk.length = 16 →
    (schedule blk).length = 64 ∧
    (∀ t, t ≤ 15 → (schedule blk)[t]? = blk[t]?) ∧
    (∀ t, 16 ≤ t → t ≤ 63 → ∃ w2 w7 w15 w16,
      (schedule blk)[t - 2]? = some w2 ∧ (schedule blk)[t - 7]? = some w7 ∧
      (schedule blk)[t - 15]? = some w15 ∧ (schedule blk)[t - 16]? = some w16 ∧
      (schedule blk)[t]? = some (add32 (add32 (add32 (smallSig1 w2) w7) (smallSig0 w15)) w16))

/-- 43_compressor.md R146: the Compressor as a function, through the working states `v_0` to `v_64`. -/
def Obligations.CompressIsSixtyFourRoundsAndAdd : Prop :=
  ∀ s blk : List Word, s.length = 8 → blk.length = 16 →
    ∃ v : Nat → Work, (v 0).toList = s ∧
      (∀ t, t ≤ 63 → ∃ w, (schedule blk)[t]? = some w ∧ v (t + 1) = sha256Round (v t) (K t) w) ∧
      (compress s blk).length = 8 ∧
      ∀ i, i ≤ 7 → ∃ x y, s[i]? = some x ∧ (v 64).toList[i]? = some y ∧ (compress s blk)[i]? = some (add32 x y)

/-- 43_compressor.md R144: `K[t] = floor(cbrt(p_t * 2^96)) mod 2^32`, with `p_t` the `t`-th prime counted from 2. -/
def Obligations.RoundConstantsAreCubeRoots : Prop :=
  roundConstants.length = 64 ∧
  ∀ t, t ≤ 63 → ∃ r : Nat, r ^ 3 ≤ Nat.nth Nat.Prime t * 2 ^ 96 ∧ Nat.nth Nat.Prime t * 2 ^ 96 < (r + 1) ^ 3 ∧
    K t = BitVec.ofNat 32 r

/-- 44_sequencer_finalizer.md R170: `H0[i] = floor(sqrt(p_i * 2^64)) mod 2^32`. -/
def Obligations.InitialConstantsAreSquareRoots : Prop :=
  H0.length = 8 ∧
  ∀ i, i ≤ 7 → ∃ r : Nat, r ^ 2 ≤ Nat.nth Nat.Prime i * 2 ^ 64 ∧ Nat.nth Nat.Prime i * 2 ^ 64 < (r + 1) ^ 2 ∧
    H0[i]? = some (BitVec.ofNat 32 r)

/-- The two known answers of 44_sequencer_finalizer.md R175. -/
def Obligations.KnownAnswersOfHash : Prop :=
  sha256 [] =
    [0xe3, 0xb0, 0xc4, 0x42, 0x98, 0xfc, 0x1c, 0x14, 0x9a, 0xfb, 0xf4, 0xc8, 0x99, 0x6f, 0xb9, 0x24,
     0x27, 0xae, 0x41, 0xe4, 0x64, 0x9b, 0x93, 0x4c, 0xa4, 0x95, 0x99, 0x1b, 0x78, 0x52, 0xb8, 0x55] ∧
  sha256 [0x48, 0x65, 0x6c, 0x6c, 0x6f, 0x20, 0x77, 0x6f, 0x72, 0x6c, 0x64, 0x21] =
    [0xc0, 0x53, 0x5e, 0x4b, 0xe2, 0xb7, 0x9f, 0xfd, 0x93, 0x29, 0x13, 0x05, 0x43, 0x6b, 0xf8, 0x89,
     0x31, 0x4e, 0x4a, 0x3f, 0xae, 0xc0, 0x5e, 0xcf, 0xfc, 0xbb, 0x7d, 0xf3, 0x1a, 0xd9, 0xe5, 0x1a]

/-! ### The commands: what each completes with, its errors and its frame

Each says the command word, the error the command's own check raises, and what the command completes with. The next
state is written as the state before with the named fields replaced, so every other field (registers, counters, ERR,
memories, the host's queue) is stated to be unchanged; `draws` counts free draws (log entry 3). -/

/-- INIT (44_sequencer_finalizer.md R171). It has no error. -/
def Obligations.InitSetsHashStateAndBlockPointer : Prop :=
  decode 0x00000001 = .ok .init ∧
  ∀ s : State, ∃ h, exec .init s = .next { s with H := h, BP := 0, response := some .ok } ∧
    holdsWords h [0x6A09E667, 0xBB67AE85, 0x3C6EF372, 0xA54FF53A, 0x510E527F, 0x9B05688C, 0x1F83D9AB, 0x5BE0CD19]

/-- PAD (40_padding.md R114): the bytes it stores, and every other cell of PMB as before. -/
def Obligations.PadStoresThePaddedMessage : Prop :=
  decode 0x00000002 = .ok .pad ∧
  (∀ s : State, s.LEN.toNat > s.cfg.msgCap → exec .pad s = raise .capacityError 0x02 s) ∧
  (∀ s : State, s.cfg.wf = true → s.LEN.toNat ≤ s.cfg.msgCap →
    ∃ m p, exec .pad s =
        .next { s with PMB := m, PLEN := p, draws := s.draws + 1, response := some .ok } ∧
      p.toNat = s.LEN.toNat + 1 + (64 - (s.LEN.toNat + 9) % 64) % 64 + 8 ∧ p.toNat ≤ pmbCap s.cfg ∧
      (∀ i, i < s.LEN.toNat → Memory.content m i = some (s.readMsg i)) ∧
      Memory.content m s.LEN.toNat = some 0x80 ∧
      (∀ i, s.LEN.toNat < i → i < p.toNat - 8 → Memory.content m i = some 0x00) ∧
      (∀ j, j < 8 → Memory.content m (p.toNat - 8 + j) =
        some ((BitVec.ofNat 64 (8 * s.LEN.toNat)).extractLsb' (56 - 8 * j) 8)) ∧
      (∀ i, p.toNat ≤ i → Memory.content m i = Memory.content s.PMB i))

/-- TOWORDS (41_word_reorder.md R123). -/
def Obligations.TowordsStoresTheWords : Prop :=
  decode 0x00000003 = .ok .towords ∧
  (∀ s : State, s.PLEN.toNat > pmbCap s.cfg → exec .towords s = raise .capacityError 0x03 s) ∧
  (∀ s : State, s.PLEN.toNat ≤ pmbCap s.cfg → s.PLEN.toNat % 4 ≠ 0 → exec .towords s = raise .invalidLength 0x03 s) ∧
  (∀ s : State, s.PLEN.toNat ≤ pmbCap s.cfg → s.PLEN.toNat % 4 = 0 →
    ∃ m n, exec .towords s =
        .next { s with WSEQ := m, WLEN := n, draws := s.draws + 1, response := some .ok } ∧
      n.toNat = s.PLEN.toNat / 4 ∧
      (∀ i, i < n.toNat → ∃ w, Memory.content m i = some w ∧
        w.toNat = (s.readPmb (4 * i)).toNat * 2 ^ 24 + (s.readPmb (4 * i + 1)).toNat * 2 ^ 16 +
          (s.readPmb (4 * i + 2)).toNat * 2 ^ 8 + (s.readPmb (4 * i + 3)).toNat) ∧
      (∀ i, n.toNat ≤ i → Memory.content m i = Memory.content s.WSEQ i))

/-- TOBYTES (41_word_reorder.md R124). -/
def Obligations.TobytesStoresTheBytes : Prop :=
  decode 0x00000004 = .ok .tobytes ∧
  (∀ s : State, s.WLEN.toNat > wseqCap s.cfg → exec .tobytes s = raise .capacityError 0x04 s) ∧
  (∀ s : State, s.cfg.wf = true → s.WLEN.toNat ≤ wseqCap s.cfg →
    ∃ m p, exec .tobytes s =
        .next { s with PMB := m, PLEN := p, draws := s.draws + 1, response := some .ok } ∧
      p.toNat = 4 * s.WLEN.toNat ∧ p.toNat ≤ pmbCap s.cfg ∧
      (∀ i, i < s.WLEN.toNat →
        Memory.content m (4 * i) = some ((s.readWseq i).extractLsb' 24 8) ∧
        Memory.content m (4 * i + 1) = some ((s.readWseq i).extractLsb' 16 8) ∧
        Memory.content m (4 * i + 2) = some ((s.readWseq i).extractLsb' 8 8) ∧
        Memory.content m (4 * i + 3) = some ((s.readWseq i).extractLsb' 0 8)) ∧
      (∀ i, p.toNat ≤ i → Memory.content m i = Memory.content s.PMB i))

/-- LOADBLK (42_scheduler.md R133). -/
def Obligations.LoadblkCopiesTheBlock : Prop :=
  decode 0x00000005 = .ok .loadblk ∧
  (∀ s : State, s.WLEN.toNat > wseqCap s.cfg ∨ 16 * s.BP.toNat + 16 > s.WLEN.toNat →
    exec .loadblk s = raise .blockRangeError 0x05 s) ∧
  (∀ s : State, s.WLEN.toNat ≤ wseqCap s.cfg → 16 * s.BP.toNat + 16 ≤ s.WLEN.toNat →
    ∃ w, exec .loadblk s =
        .next { s with W := w, TS := 16, draws := s.draws + 1, response := some .ok } ∧
      (∀ i, i < 16 → RegFile.content w i = some (s.readWseq (16 * s.BP.toNat + i))) ∧
      (∀ i, 16 ≤ i → RegFile.content w i = RegFile.content s.W i))

/-- SCHED (42_scheduler.md R134). -/
def Obligations.SchedComputesTheNextWord : Prop :=
  decode 0x00000006 = .ok .sched ∧
  (∀ s : State, s.TS = 64 → exec .sched s = raise .sequenceError 0x06 s) ∧
  (∀ s : State, 16 ≤ s.TS.toNat → s.TS.toNat ≤ 63 →
    ∃ w, exec .sched s =
        .next { s with W := w, TS := s.TS + 1, draws := s.draws + 1, response := some .ok } ∧
      RegFile.content w s.TS.toNat =
        some (smallSig1 (s.readW (s.TS.toNat - 2)) + s.readW (s.TS.toNat - 7) +
          smallSig0 (s.readW (s.TS.toNat - 15)) + s.readW (s.TS.toNat - 16)) ∧
      (∀ i, i ≠ s.TS.toNat → RegFile.content w i = RegFile.content s.W i))

/-- EXPAND (42_scheduler.md R135) has no error; it leaves W[0 .. TS), and with TS = 64 everything; where the words it
starts from are written, each word from TS on follows the recurrence; and after a LOADBLK (TS = 16) it leaves the
schedule of the block in W. -/
def Obligations.ExpandComputesTheRemainingWords : Prop :=
  decode 0x00000007 = .ok .expand ∧
  ∀ s : State, ∃ w d, exec .expand s =
      .next { s with W := w, TS := 64, draws := d, response := some .ok } ∧
    (s.TS = 64 → w = s.W ∧ d = s.draws) ∧
    (16 ≤ s.TS.toNat → ∀ i, i < s.TS.toNat → RegFile.content w i = RegFile.content s.W i) ∧
    (16 ≤ s.TS.toNat → (∀ i, i < s.TS.toNat → (RegFile.content s.W i).isSome = true) →
      ∀ t, s.TS.toNat ≤ t → t ≤ 63 → ∃ w2 w7 w15 w16,
        RegFile.content w (t - 2) = some w2 ∧ RegFile.content w (t - 7) = some w7 ∧
        RegFile.content w (t - 15) = some w15 ∧ RegFile.content w (t - 16) = some w16 ∧
        RegFile.content w t = some (smallSig1 w2 + w7 + smallSig0 w15 + w16)) ∧
    (∀ blk : List Word, s.TS = 16 → blk.length = 16 → (∀ i, i < 16 → RegFile.content s.W i = blk[i]?) →
      holdsWords w (schedule blk))

/-- LOADV (43_compressor.md R147) has no error. -/
def Obligations.LoadvCopiesTheHashState : Prop :=
  decode 0x00000008 = .ok .loadv ∧
  ∀ s : State, ∃ v, exec .loadv s =
      .next { s with V := v, TR := 0, draws := s.draws + 1, response := some .ok } ∧
    ∀ i, i < 8 → RegFile.content v i = some (s.readH i)

/-- ROUND (43_compressor.md R148, R145): all eight new words from the eight old ones. -/
def Obligations.RoundPerformsTheNextRound : Prop :=
  decode 0x00000009 = .ok .round ∧
  (∀ s : State, s.TR = 64 ∨ s.TR.toNat ≥ s.TS.toNat → exec .round s = raise .sequenceError 0x09 s) ∧
  (∀ s : State, s.TR.toNat < 64 → s.TR.toNat < s.TS.toNat →
    ∃ v, exec .round s =
        .next { s with V := v, TR := s.TR + 1, draws := s.draws + 1, response := some .ok } ∧
      ∃ t1 t2 : Word,
        t1 = s.readV 7 + bigSig1 (s.readV 4) + ch (s.readV 4) (s.readV 5) (s.readV 6) + K s.TR.toNat +
          s.readW s.TR.toNat ∧
        t2 = bigSig0 (s.readV 0) + maj (s.readV 0) (s.readV 1) (s.readV 2) ∧
        holdsWords v [t1 + t2, s.readV 0, s.readV 1, s.readV 2, s.readV 3 + t1, s.readV 4, s.readV 5, s.readV 6])

/-- ROUNDS (43_compressor.md R149): with TR = 64 it changes nothing; where V and the schedule are written, it performs
the rounds TR to 63 in increasing order. -/
def Obligations.RoundsPerformsTheRemainingRounds : Prop :=
  decode 0x0000000A = .ok .rounds ∧
  (∀ s : State, s.TS ≠ 64 → exec .rounds s = raise .sequenceError 0x0A s) ∧
  (∀ s : State, s.TS = 64 →
    ∃ v d, exec .rounds s =
        .next { s with V := v, TR := 64, draws := d, response := some .ok } ∧
      (s.TR = 64 → v = s.V ∧ d = s.draws) ∧
      (s.TR.toNat ≤ 64 → (∀ i, i < 8 → (RegFile.content s.V i).isSome = true) →
        (∀ t, s.TR.toNat ≤ t → t ≤ 63 → (RegFile.content s.W t).isSome = true) →
        ∃ x : Nat → Work, x s.TR.toNat = s.working ∧
          (∀ t, s.TR.toNat ≤ t → t ≤ 63 → x (t + 1) = sha256Round (x t) (K t) (s.readW t)) ∧
          holdsWords v (x 64).toList))

/-- ADDBACK (43_compressor.md R150). -/
def Obligations.AddbackAddsTheWorkingState : Prop :=
  decode 0x0000000B = .ok .addback ∧
  (∀ s : State, s.TR ≠ 64 → exec .addback s = raise .sequenceError 0x0B s) ∧
  (∀ s : State, s.TR = 64 →
    ∃ h, exec .addback s = .next { s with H := h, draws := s.draws + 1, response := some .ok } ∧
      ∀ i, i < 8 → RegFile.content h i = some (s.readH i + s.readV i))

/-- COMPRESS (43_compressor.md R151): the counters and the pointer, the schedule left in W; and, where H is written,
`H <- compress(H, block)` with the final working state left in V. -/
def Obligations.CompressUpdatesTheHashState : Prop :=
  decode 0x0000000C = .ok .compress ∧
  (∀ s : State, s.WLEN.toNat > wseqCap s.cfg ∨ 16 * s.BP.toNat + 16 > s.WLEN.toNat →
    exec .compress s = raise .blockRangeError 0x0C s) ∧
  (∀ s : State, s.WLEN.toNat ≤ wseqCap s.cfg → 16 * s.BP.toNat + 16 ≤ s.WLEN.toNat →
    ∃ h v w d, exec .compress s =
        .next { s with
          H := h, V := v, W := w, TS := 64, TR := 64, BP := s.BP + 1, draws := d, response := some .ok } ∧
      holdsWords w (schedule s.block) ∧
      ((∀ i, i < 8 → (RegFile.content s.H i).isSome = true) →
        holdsWords h (compress s.running s.block) ∧
        holdsWords v (roundsOn (schedule s.block) (Work.ofList s.running) 64).toList))

/-- DIGEST (44_sequencer_finalizer.md R172) has no error. That the four bytes of an
unspecified H[i] come from one read of it is the model's choice (log entry 12). -/
def Obligations.DigestSerialisesTheHashState : Prop :=
  decode 0x0000000D = .ok .digest ∧
  ∀ s : State, ∃ g, exec .digest s = .next { s with DIG := g, draws := s.draws + 1, response := some .ok } ∧
    ∀ i, i < 8 →
      RegFile.content g (4 * i) = some ((s.readH i).extractLsb' 24 8) ∧
      RegFile.content g (4 * i + 1) = some ((s.readH i).extractLsb' 16 8) ∧
      RegFile.content g (4 * i + 2) = some ((s.readH i).extractLsb' 8 8) ∧
      RegFile.content g (4 * i + 3) = some ((s.readH i).extractLsb' 0 8)

/-- HASH (44_sequencer_finalizer.md R174, R175): its error, `DIG[0..31] <- hash(MSG[0 .. LEN))`, the whole end state of
R174, and what it leaves unchanged. -/
def Obligations.HashComputesTheDigest : Prop :=
  decode 0x0000000E = .ok .hash ∧
  (∀ s : State, s.LEN.toNat > s.cfg.msgCap → exec .hash s = raise .capacityError 0x0E s) ∧
  (∀ s : State, s.cfg.wf = true → s.LEN.toNat ≤ s.cfg.msgCap →
    ∃ t, exec .hash s = .next t ∧ t.response = some .ok ∧
      (∀ j, j < 32 → RegFile.content t.DIG j = (sha256 s.message)[j]?) ∧
      t.PLEN.toNat = 64 * ((s.LEN.toNat + 72) / 64) ∧ t.WLEN.toNat = t.PLEN.toNat / 4 ∧
      t.BP.toNat = t.PLEN.toNat / 64 ∧ 1 ≤ t.BP.toNat ∧ t.TS = 64 ∧ t.TR = 64 ∧
      (∀ i, i < t.PLEN.toNat → Memory.content t.PMB i = (pad s.message)[i]?) ∧
      (∀ i, t.PLEN.toNat ≤ i → Memory.content t.PMB i = Memory.content s.PMB i) ∧
      toWords (pad s.message) = some (groupWords (pad s.message)) ∧
      (∀ i, i < t.WLEN.toNat → Memory.content t.WSEQ i = (groupWords (pad s.message))[i]?) ∧
      (∀ i, t.WLEN.toNat ≤ i → Memory.content t.WSEQ i = Memory.content s.WSEQ i) ∧
      holdsWords t.H (foldBlocks (groupWords (pad s.message)) t.BP.toNat) ∧
      holdsWords t.W (schedule (blockOf (groupWords (pad s.message)) (t.BP.toNat - 1))) ∧
      holdsWords t.V (roundsOn (schedule (blockOf (groupWords (pad s.message)) (t.BP.toNat - 1)))
        (Work.ofList (foldBlocks (groupWords (pad s.message)) (t.BP.toNat - 1))) 64).toList ∧
      t.cfg = s.cfg ∧ t.LEN = s.LEN ∧ t.ERR = s.ERR ∧ t.MSG = s.MSG ∧ t.pending = s.pending)

/-! ### Relations between commands -/

/-- HASH depends on LEN and MSG[0 .. LEN) only (00_scope.md R17, 44_sequencer_finalizer.md R174): two engines that
agree on those give the same digest, whatever else they hold. -/
def Obligations.HashDependsOnTheMessageOnly : Prop :=
  ∀ s s' t t' : State, s.cfg.wf = true → s'.cfg.wf = true → s.LEN.toNat ≤ s.cfg.msgCap →
    s'.LEN.toNat ≤ s'.cfg.msgCap → s'.LEN = s.LEN →
    (∀ i, i < s.LEN.toNat → (Memory.content s.MSG i).isSome = true ∧
      Memory.content s'.MSG i = Memory.content s.MSG i) →
    exec .hash s = .next t → exec .hash s' = .next t' →
      ∀ j, j < 32 → (RegFile.content t.DIG j).isSome = true ∧ RegFile.content t'.DIG j = RegFile.content t.DIG j

/-- COMPRESS is LOADBLK, EXPAND, LOADV, ROUNDS, ADDBACK and a host write of BP + 1 to BP (43_compressor.md R151). The two
runs are compared with the same free draws (log entry 3). -/
def Obligations.CompressIsItsFiveSteps : Prop :=
  ∀ s : State, s.WLEN.toNat ≤ wseqCap s.cfg → 16 * s.BP.toNat + 16 ≤ s.WLEN.toNat →
    ∃ s1 s2 s3 s4 s5, exec .loadblk s = .next s1 ∧ exec .expand s1 = .next s2 ∧ exec .loadv s2 = .next s3 ∧
      exec .rounds s3 = .next s4 ∧ exec .addback s4 = .next s5 ∧ s5.response = some .ok ∧ s5.BP = s.BP ∧
      exec .compress s = .next { s5 with BP := s.BP + 1 }

/-- "EXPAND equals `64 - TS` SCHED commands in a row" (42_scheduler.md R135), compared with the same free draws (log
entry 3). With TS = 64 there is no SCHED to answer, so there the response field (log entry 5) must already be OK. -/
def Obligations.ExpandIsRepeatedSched : Prop :=
  ∀ s : State, (s.TS.toNat = 64 → s.response = some .ok) → s.TS.toNat ≤ 64 →
    ∃ t, exec .expand s = .next t ∧ repeatOk .sched (64 - s.TS.toNat) s t

/-- "ROUNDS equals `64 - TR` ROUND commands in a row when `TS = 64`" (43_compressor.md R149), compared with the same free
draws (log entry 3). With TR = 64 there is no ROUND to answer, so there the response field (log entry 5) must already be
OK. -/
def Obligations.RoundsIsRepeatedRound : Prop :=
  ∀ s : State, (s.TR.toNat = 64 → s.response = some .ok) → s.TS = 64 → s.TR.toNat ≤ 64 →
    ∃ t, exec .rounds s = .next t ∧ repeatOk .round (64 - s.TR.toNat) s t

/-- A schedule step and a round may be given in either order (43_compressor.md R148, 70_reset_and_hazards.md R223):
"W[t] does not depend on V". -/
def Obligations.SchedAndRoundCommute : Prop :=
  ∀ s : State, s.Inv → s.Loaded → s.TS.toNat ≤ 63 → s.TR.toNat < s.TS.toNat →
    ∃ a b t, exec .sched s = .next a ∧ exec .round a = .next t ∧ exec .round s = .next b ∧
      exec .sched b = .next t ∧ t.TS = s.TS + 1 ∧ t.TR = s.TR + 1

/-- TOBYTES after a successful TOWORDS writes back the bytes that were there (41_word_reorder.md R124). -/
def Obligations.TobytesAfterTowordsRestoresTheBytes : Prop :=
  ∀ s t : State, s.cfg.wf = true → exec .towords s = .next t → t.response = some .ok →
    (∀ i, i < s.PLEN.toNat → (Memory.content s.PMB i).isSome = true) →
      ∃ u, exec .tobytes t = .next u ∧ u.response = some .ok ∧ u.PLEN = s.PLEN ∧
        ∀ i, Memory.content u.PMB i = Memory.content s.PMB i

/-- After HASH every block is taken: "the next COMPRESS fails" with BlockRangeError (60_exceptions.md R196). -/
def Obligations.CompressAfterHashIsOutOfRange : Prop :=
  ∀ s t : State, s.cfg.wf = true → s.LEN.toNat ≤ s.cfg.msgCap → exec .hash s = .next t →
    16 * t.BP.toNat = t.WLEN.toNat ∧
    ∃ u, exec .compress t = .next u ∧ u.response = some (.err .blockRangeError)

/-! ### The sigma functions -/

/-- 42_scheduler.md R130, R131 and 43_compressor.md R142, R143: each sigma function as its three terms, and bit by bit
(00_scope.md R11, R12); the third term of the small ones is a shift, so it adds nothing to the high bits. -/
def Obligations.SigmasAreTheirThreeTerms : Prop :=
  ∀ x : Word,
    smallSig0 x = rotr x 7 ^^^ rotr x 18 ^^^ shr x 3 ∧ smallSig1 x = rotr x 17 ^^^ rotr x 19 ^^^ shr x 10 ∧
    bigSig0 x = rotr x 2 ^^^ rotr x 13 ^^^ rotr x 22 ∧ bigSig1 x = rotr x 6 ^^^ rotr x 11 ^^^ rotr x 25 ∧
    ∀ i, i < 32 →
      (smallSig0 x).getLsbD i =
        (x.getLsbD ((i + 7) % 32) ^^ x.getLsbD ((i + 18) % 32) ^^ (decide (i < 29) && x.getLsbD (i + 3))) ∧
      (smallSig1 x).getLsbD i =
        (x.getLsbD ((i + 17) % 32) ^^ x.getLsbD ((i + 19) % 32) ^^ (decide (i < 22) && x.getLsbD (i + 10))) ∧
      (bigSig0 x).getLsbD i =
        (x.getLsbD ((i + 2) % 32) ^^ x.getLsbD ((i + 13) % 32) ^^ x.getLsbD ((i + 22) % 32)) ∧
      (bigSig1 x).getLsbD i =
        (x.getLsbD ((i + 6) % 32) ^^ x.getLsbD ((i + 11) % 32) ^^ x.getLsbD ((i + 25) % 32))
end

