-- ==== Sys2Proof/Laws/Cells.lean ====
section
/-! SUPPORT. What a register file and a memory hold after a write, and that every memory operation keeps the canonical
form and stays inside the memory's capacity. -/

namespace Sys2Proof.Machine

/-! ### Register files -/

theorem patch_getElem? {w : Nat} : ∀ (rs : List (Reg w)) (i : Nat) (vs : List (BitVec w)) (j : Nat),
    i + vs.length ≤ rs.length →
    (patch rs i vs)[j]? =
      if i ≤ j ∧ j < i + vs.length then (vs[j - i]?).map fun v => { val := v, written := true } else rs[j]?
  | [], i, vs, j, h => by
    have hv : vs = [] := List.eq_nil_of_length_eq_zero (by simp only [List.length_nil] at h; omega)
    subst hv
    rw [if_neg (by simp)]; rfl
  | r :: rs, i + 1, vs, 0, _ => by rw [if_neg (by omega)]; rfl
  | r :: rs, i + 1, vs, j + 1, h => by
    have := patch_getElem? rs i vs j (by simp only [List.length_cons] at h; omega)
    rw [patch, List.getElem?_cons_succ, this, List.getElem?_cons_succ, Nat.add_sub_add_right]
    by_cases hc : i ≤ j ∧ j < i + vs.length
    · rw [if_pos hc, if_pos (by omega)]
    · rw [if_neg hc, if_neg (by omega)]
  | r :: rs, 0, v :: vs, 0, _ => by simp [patch]
  | r :: rs, 0, v :: vs, j + 1, h => by
    have := patch_getElem? rs 0 vs j (by simp only [List.length_cons] at h; omega)
    rw [patch, List.getElem?_cons_succ, this, List.getElem?_cons_succ]
    simp
  | r :: rs, 0, [], j, _ => by rw [if_neg (by simp)]; rfl

theorem RegFile.content_of_le {w n : Nat} (f : RegFile w n) (i : Nat) (h : n ≤ i) : RegFile.content f i = none := by
  unfold RegFile.content
  rw [Vector.getElem?_eq_none h]

theorem RegFile.content_writeMany {w n : Nat} (vs : List (BitVec w)) (f : RegFile w n) (i j : Nat)
    (h : i + vs.length ≤ n) :
    RegFile.content (RegFile.writeMany f i vs) j =
      if i ≤ j ∧ j < i + vs.length then vs[j - i]? else RegFile.content f j := by
  have hget : (RegFile.writeMany f i vs)[j]? = (patch f.toList i vs)[j]? := by
    unfold RegFile.writeMany
    rw [Vector.getElem?_mk, List.getElem?_toArray]
  unfold RegFile.content
  rw [hget, patch_getElem? _ _ _ _ (by simpa using h)]
  by_cases hc : i ≤ j ∧ j < i + vs.length
  · rw [if_pos hc, if_pos hc]
    cases vs[j - i]? <;> rfl
  · rw [if_neg hc, if_neg hc, Vector.getElem?_toList]

theorem RegFile.content_write {w n : Nat} (f : RegFile w n) (i j : Nat) (v : BitVec w) (h : i < n) :
    RegFile.content (RegFile.write f i v) j = if j = i then some v else RegFile.content f j := by
  rw [RegFile.write, RegFile.content_writeMany _ _ _ _ (by simp; omega)]
  by_cases hj : j = i
  · subst hj; simp
  · rw [if_neg hj, if_neg (by simp; omega)]

/-- A whole register file written from its first register. -/
theorem RegFile.content_writeAll {w n : Nat} (f : RegFile w n) (vs : List (BitVec w)) (j : Nat) (h : vs.length = n) :
    RegFile.content (RegFile.writeMany f 0 vs) j = vs[j]? := by
  rw [RegFile.content_writeMany vs f 0 j (by omega)]
  by_cases hj : j < vs.length
  · simp [hj]
  · rw [if_neg (by omega), RegFile.content_of_le _ _ (by omega), List.getElem?_eq_none (by omega)]

@[simp] theorem RegFile.content_unwritten {w n : Nat} (i : Nat) :
    RegFile.content (Vector.replicate n (Reg.unwritten : Reg w)) i = none := by
  unfold RegFile.content
  rw [Vector.getElem?_replicate]
  split <;> rename_i r h
  · split at h
    · cases h; rfl
    · cases h
  · rfl

/-! ### Memories -/

@[simp] theorem Memory.content_nil {w : Nat} (i : Nat) : Memory.content ([] : Memory w) i = none := rfl

theorem Memory.content_write {w : Nat} (m : Memory w) (i j : Nat) (v : BitVec w) :
    Memory.content (Memory.write m i v) j = if j = i then some v else Memory.content m j := by
  induction m with
  | nil => simp only [Memory.write, Memory.content, eq_comm]
  | cons e m ih =>
    obtain ⟨a, u⟩ := e
    unfold Memory.write
    split
    · simp only [Memory.content, eq_comm (a := i)]
    · split
      · rename_i _ h; subst h
        simp only [Memory.content, eq_comm (a := i)]
        split <;> rfl
      · simp only [Memory.content, ih]
        by_cases h1 : a = j
        · have h2 : j ≠ i := by omega
          simp [h1, h2]
        · simp [h1]

theorem Memory.content_writeMany {w : Nat} (vs : List (BitVec w)) : ∀ (m : Memory w) (i j : Nat),
    Memory.content (Memory.writeMany m i vs) j =
      if i ≤ j ∧ j < i + vs.length then vs[j - i]? else Memory.content m j := by
  induction vs with
  | nil => intro m i j; have : ¬ (i ≤ j ∧ j < i) := by omega
           simp [Memory.writeMany, this]
  | cons v vs ih =>
    intro m i j
    rw [Memory.writeMany, ih, Memory.content_write]
    by_cases hj : j = i
    · subst hj; simp
    · by_cases hr : i + 1 ≤ j ∧ j < i + 1 + vs.length
      · have h2 : i ≤ j ∧ j < i + (v :: vs).length := by simp only [List.length_cons]; omega
        rw [if_pos hr, if_pos h2, show j - i = (j - (i + 1)) + 1 by omega, List.getElem?_cons_succ]
      · have h2 : ¬ (i ≤ j ∧ j < i + (v :: vs).length) := by simp only [List.length_cons]; omega
        rw [if_neg hr, if_neg h2, if_neg hj]

/-- The sequence `vs` written from cell 0. -/
theorem Memory.content_writeFrom0 {w : Nat} (m : Memory w) (vs : List (BitVec w)) (j : Nat) :
    Memory.content (Memory.writeMany m 0 vs) j = if j < vs.length then vs[j]? else Memory.content m j := by
  rw [Memory.content_writeMany]; simp

/-- Canonical form said through `Pairwise`: offsets strictly rising. -/
theorem Memory.wf_iff {w : Nat} (m : Memory w) : Memory.wf m = true ↔ m.Pairwise (fun e f => e.1 < f.1) := by
  induction m with
  | nil => simp [Memory.wf]
  | cons e m ih =>
    cases m with
    | nil => simp [Memory.wf]
    | cons f m =>
      obtain ⟨a, u⟩ := e
      obtain ⟨b, v⟩ := f
      rw [Memory.wf, Bool.and_eq_true, ih, decide_eq_true_eq, List.pairwise_cons (l := (b, v) :: m)]
      refine ⟨fun ⟨h, hp⟩ => ⟨?_, hp⟩, fun ⟨h, hp⟩ => ⟨h (b, v) (by simp), hp⟩⟩
      intro x hx
      rcases List.mem_cons.1 hx with rfl | hx
      · exact h
      · exact lt_trans h ((List.pairwise_cons.1 hp).1 x hx)

theorem Memory.mem_write {w : Nat} (m : Memory w) (i : Nat) (v : BitVec w) (e : Nat × BitVec w)
    (h : e ∈ Memory.write m i v) : e = (i, v) ∨ e ∈ m := by
  induction m with
  | nil => simpa [Memory.write] using h
  | cons f m ih =>
    obtain ⟨a, u⟩ := f
    unfold Memory.write at h
    split at h
    · simpa using h
    · split at h
      · rcases List.mem_cons.1 h with h | h
        · exact .inl h
        · exact .inr (List.mem_cons_of_mem _ h)
      · rcases List.mem_cons.1 h with h | h
        · exact .inr (h ▸ List.mem_cons_self)
        · rcases ih h with h | h
          · exact .inl h
          · exact .inr (List.mem_cons_of_mem _ h)

theorem Memory.wf_write {w : Nat} (m : Memory w) (i : Nat) (v : BitVec w) (h : Memory.wf m = true) :
    Memory.wf (Memory.write m i v) = true := by
  rw [Memory.wf_iff] at h ⊢
  induction m with
  | nil => simp [Memory.write]
  | cons f m ih =>
    obtain ⟨a, u⟩ := f
    obtain ⟨h1, h2⟩ := List.pairwise_cons.1 h
    unfold Memory.write
    split
    · refine List.pairwise_cons.2 ⟨?_, h⟩
      intro e he
      rcases List.mem_cons.1 he with rfl | he
      · assumption
      · exact lt_trans ‹_› (h1 e he)
    · split
      · rename_i _ hia; subst hia
        exact List.pairwise_cons.2 ⟨h1, h2⟩
      · refine List.pairwise_cons.2 ⟨?_, ih h2⟩
        intro e he
        rcases Memory.mem_write m i v e he with rfl | he
        · simp only; omega
        · exact h1 e he

theorem Memory.wf_writeMany {w : Nat} (vs : List (BitVec w)) : ∀ (m : Memory w) (i : Nat),
    Memory.wf m = true → Memory.wf (Memory.writeMany m i vs) = true := by
  induction vs with
  | nil => intro m i h; exact h
  | cons v vs ih => intro m i h; exact ih _ _ (Memory.wf_write m i v h)

theorem Memory.below_iff {w : Nat} (cap : Nat) (m : Memory w) :
    Memory.below cap m = true ↔ ∀ e ∈ m, e.1 < cap := by
  simp [Memory.below]

theorem Memory.below_write {w : Nat} (cap : Nat) (m : Memory w) (i : Nat) (v : BitVec w) (hi : i < cap)
    (h : Memory.below cap m = true) : Memory.below cap (Memory.write m i v) = true := by
  rw [Memory.below_iff] at h ⊢
  intro e he
  rcases Memory.mem_write m i v e he with rfl | he
  · exact hi
  · exact h e he

theorem Memory.below_writeMany {w : Nat} (cap : Nat) (vs : List (BitVec w)) : ∀ (m : Memory w) (i : Nat),
    i + vs.length ≤ cap → Memory.below cap m = true → Memory.below cap (Memory.writeMany m i vs) = true := by
  induction vs with
  | nil => intro m i _ h; exact h
  | cons v vs ih =>
    intro m i hc h
    simp only [List.length_cons] at hc
    exact ih _ _ (by omega) (Memory.below_write cap m i v (by omega) h)

end Sys2Proof.Machine
end

