-- ==== Sys2Proof/Laws/State.lean ====
section
/-! SUPPORT. One lemma per field for each named update of the state, each true by `rfl`, so that no later proof unfolds
a record update. -/

namespace Sys2Proof.Machine

/-! ### respond -/

@[simp] theorem respond_cfg (s : State) (r : Response) : (s.respond r).cfg = s.cfg := rfl
@[simp] theorem respond_H (s : State) (r : Response) : (s.respond r).H = s.H := rfl
@[simp] theorem respond_V (s : State) (r : Response) : (s.respond r).V = s.V := rfl
@[simp] theorem respond_W (s : State) (r : Response) : (s.respond r).W = s.W := rfl
@[simp] theorem respond_DIG (s : State) (r : Response) : (s.respond r).DIG = s.DIG := rfl
@[simp] theorem respond_LEN (s : State) (r : Response) : (s.respond r).LEN = s.LEN := rfl
@[simp] theorem respond_PLEN (s : State) (r : Response) : (s.respond r).PLEN = s.PLEN := rfl
@[simp] theorem respond_WLEN (s : State) (r : Response) : (s.respond r).WLEN = s.WLEN := rfl
@[simp] theorem respond_BP (s : State) (r : Response) : (s.respond r).BP = s.BP := rfl
@[simp] theorem respond_TS (s : State) (r : Response) : (s.respond r).TS = s.TS := rfl
@[simp] theorem respond_TR (s : State) (r : Response) : (s.respond r).TR = s.TR := rfl
@[simp] theorem respond_ERR (s : State) (r : Response) : (s.respond r).ERR = s.ERR := rfl
@[simp] theorem respond_MSG (s : State) (r : Response) : (s.respond r).MSG = s.MSG := rfl
@[simp] theorem respond_PMB (s : State) (r : Response) : (s.respond r).PMB = s.PMB := rfl
@[simp] theorem respond_WSEQ (s : State) (r : Response) : (s.respond r).WSEQ = s.WSEQ := rfl
@[simp] theorem respond_pending (s : State) (r : Response) : (s.respond r).pending = s.pending := rfl
@[simp] theorem respond_response (s : State) (r : Response) : (s.respond r).response = some r := rfl
@[simp] theorem respond_draws (s : State) (r : Response) : (s.respond r).draws = s.draws := rfl

/-! ### nextDraw -/

@[simp] theorem nextDraw_cfg (s : State) : s.nextDraw.cfg = s.cfg := rfl
@[simp] theorem nextDraw_H (s : State) : s.nextDraw.H = s.H := rfl
@[simp] theorem nextDraw_V (s : State) : s.nextDraw.V = s.V := rfl
@[simp] theorem nextDraw_W (s : State) : s.nextDraw.W = s.W := rfl
@[simp] theorem nextDraw_DIG (s : State) : s.nextDraw.DIG = s.DIG := rfl
@[simp] theorem nextDraw_LEN (s : State) : s.nextDraw.LEN = s.LEN := rfl
@[simp] theorem nextDraw_PLEN (s : State) : s.nextDraw.PLEN = s.PLEN := rfl
@[simp] theorem nextDraw_WLEN (s : State) : s.nextDraw.WLEN = s.WLEN := rfl
@[simp] theorem nextDraw_BP (s : State) : s.nextDraw.BP = s.BP := rfl
@[simp] theorem nextDraw_TS (s : State) : s.nextDraw.TS = s.TS := rfl
@[simp] theorem nextDraw_TR (s : State) : s.nextDraw.TR = s.TR := rfl
@[simp] theorem nextDraw_ERR (s : State) : s.nextDraw.ERR = s.ERR := rfl
@[simp] theorem nextDraw_MSG (s : State) : s.nextDraw.MSG = s.MSG := rfl
@[simp] theorem nextDraw_PMB (s : State) : s.nextDraw.PMB = s.PMB := rfl
@[simp] theorem nextDraw_WSEQ (s : State) : s.nextDraw.WSEQ = s.WSEQ := rfl
@[simp] theorem nextDraw_pending (s : State) : s.nextDraw.pending = s.pending := rfl
@[simp] theorem nextDraw_response (s : State) : s.nextDraw.response = s.response := rfl
@[simp] theorem nextDraw_draws (s : State) : s.nextDraw.draws = s.draws + 1 := rfl

/-! ### clearErr -/

@[simp] theorem clearErr_cfg (s : State) : (clearErr s).cfg = s.cfg := rfl
@[simp] theorem clearErr_H (s : State) : (clearErr s).H = s.H := rfl
@[simp] theorem clearErr_V (s : State) : (clearErr s).V = s.V := rfl
@[simp] theorem clearErr_W (s : State) : (clearErr s).W = s.W := rfl
@[simp] theorem clearErr_DIG (s : State) : (clearErr s).DIG = s.DIG := rfl
@[simp] theorem clearErr_LEN (s : State) : (clearErr s).LEN = s.LEN := rfl
@[simp] theorem clearErr_PLEN (s : State) : (clearErr s).PLEN = s.PLEN := rfl
@[simp] theorem clearErr_WLEN (s : State) : (clearErr s).WLEN = s.WLEN := rfl
@[simp] theorem clearErr_BP (s : State) : (clearErr s).BP = s.BP := rfl
@[simp] theorem clearErr_TS (s : State) : (clearErr s).TS = s.TS := rfl
@[simp] theorem clearErr_TR (s : State) : (clearErr s).TR = s.TR := rfl
@[simp] theorem clearErr_ERR (s : State) : (clearErr s).ERR = 0 := rfl
@[simp] theorem clearErr_MSG (s : State) : (clearErr s).MSG = s.MSG := rfl
@[simp] theorem clearErr_PMB (s : State) : (clearErr s).PMB = s.PMB := rfl
@[simp] theorem clearErr_WSEQ (s : State) : (clearErr s).WSEQ = s.WSEQ := rfl
@[simp] theorem clearErr_pending (s : State) : (clearErr s).pending = s.pending := rfl
@[simp] theorem clearErr_response (s : State) : (clearErr s).response = s.response := rfl
@[simp] theorem clearErr_draws (s : State) : (clearErr s).draws = s.draws := rfl

/-! ### takeReset -/

@[simp] theorem takeReset_cfg (s : State) : (takeReset s).cfg = s.cfg := rfl
@[simp] theorem takeReset_H (s : State) : (takeReset s).H = Vector.replicate 8 Reg.unwritten := rfl
@[simp] theorem takeReset_V (s : State) : (takeReset s).V = Vector.replicate 8 Reg.unwritten := rfl
@[simp] theorem takeReset_W (s : State) : (takeReset s).W = Vector.replicate 64 Reg.unwritten := rfl
@[simp] theorem takeReset_DIG (s : State) : (takeReset s).DIG = Vector.replicate 32 Reg.unwritten := rfl
@[simp] theorem takeReset_LEN (s : State) : (takeReset s).LEN = 0 := rfl
@[simp] theorem takeReset_PLEN (s : State) : (takeReset s).PLEN = 0 := rfl
@[simp] theorem takeReset_WLEN (s : State) : (takeReset s).WLEN = 0 := rfl
@[simp] theorem takeReset_BP (s : State) : (takeReset s).BP = 0 := rfl
@[simp] theorem takeReset_TS (s : State) : (takeReset s).TS = 64 := rfl
@[simp] theorem takeReset_TR (s : State) : (takeReset s).TR = 64 := rfl
@[simp] theorem takeReset_ERR (s : State) : (takeReset s).ERR = 0 := rfl
@[simp] theorem takeReset_MSG (s : State) : (takeReset s).MSG = [] := rfl
@[simp] theorem takeReset_PMB (s : State) : (takeReset s).PMB = [] := rfl
@[simp] theorem takeReset_WSEQ (s : State) : (takeReset s).WSEQ = [] := rfl
@[simp] theorem takeReset_pending (s : State) : (takeReset s).pending = s.pending := rfl
@[simp] theorem takeReset_response (s : State) : (takeReset s).response = none := rfl
@[simp] theorem takeReset_draws (s : State) : (takeReset s).draws = s.draws := rfl

/-! ### The state after reset (10_state.md rule R42) -/

@[simp] theorem reset_eq : State.reset = State.resetWith Config.reference := rfl

@[simp] theorem resetWith_cfg (c : Config) : (State.resetWith c).cfg = c := rfl
@[simp] theorem resetWith_H (c : Config) : (State.resetWith c).H = Vector.replicate 8 Reg.unwritten := rfl
@[simp] theorem resetWith_V (c : Config) : (State.resetWith c).V = Vector.replicate 8 Reg.unwritten := rfl
@[simp] theorem resetWith_W (c : Config) : (State.resetWith c).W = Vector.replicate 64 Reg.unwritten := rfl
@[simp] theorem resetWith_DIG (c : Config) : (State.resetWith c).DIG = Vector.replicate 32 Reg.unwritten := rfl
@[simp] theorem resetWith_LEN (c : Config) : (State.resetWith c).LEN = 0 := rfl
@[simp] theorem resetWith_PLEN (c : Config) : (State.resetWith c).PLEN = 0 := rfl
@[simp] theorem resetWith_WLEN (c : Config) : (State.resetWith c).WLEN = 0 := rfl
@[simp] theorem resetWith_BP (c : Config) : (State.resetWith c).BP = 0 := rfl
@[simp] theorem resetWith_TS (c : Config) : (State.resetWith c).TS = 64 := rfl
@[simp] theorem resetWith_TR (c : Config) : (State.resetWith c).TR = 64 := rfl
@[simp] theorem resetWith_ERR (c : Config) : (State.resetWith c).ERR = 0 := rfl
@[simp] theorem resetWith_MSG (c : Config) : (State.resetWith c).MSG = [] := rfl
@[simp] theorem resetWith_PMB (c : Config) : (State.resetWith c).PMB = [] := rfl
@[simp] theorem resetWith_WSEQ (c : Config) : (State.resetWith c).WSEQ = [] := rfl
@[simp] theorem resetWith_pending (c : Config) : (State.resetWith c).pending = [] := rfl
@[simp] theorem resetWith_response (c : Config) : (State.resetWith c).response = none := rfl
@[simp] theorem resetWith_draws (c : Config) : (State.resetWith c).draws = 0 := rfl

end Sys2Proof.Machine
end

