-- ==== Sys2Proof/Laws/Fields.lean ====
section
/-! SUPPORT. The fields that each single effect of a command leaves alone, and its number of draws: one lemma per field
per effect, each true by `rfl`. -/

namespace Sys2Proof.Machine

/-! ### initEffect -/

@[simp] theorem initEffect_cfg (s : State) : (initEffect s).cfg = s.cfg := rfl
@[simp] theorem initEffect_V (s : State) : (initEffect s).V = s.V := rfl
@[simp] theorem initEffect_W (s : State) : (initEffect s).W = s.W := rfl
@[simp] theorem initEffect_DIG (s : State) : (initEffect s).DIG = s.DIG := rfl
@[simp] theorem initEffect_LEN (s : State) : (initEffect s).LEN = s.LEN := rfl
@[simp] theorem initEffect_PLEN (s : State) : (initEffect s).PLEN = s.PLEN := rfl
@[simp] theorem initEffect_WLEN (s : State) : (initEffect s).WLEN = s.WLEN := rfl
@[simp] theorem initEffect_BP (s : State) : (initEffect s).BP = 0 := rfl
@[simp] theorem initEffect_TS (s : State) : (initEffect s).TS = s.TS := rfl
@[simp] theorem initEffect_TR (s : State) : (initEffect s).TR = s.TR := rfl
@[simp] theorem initEffect_ERR (s : State) : (initEffect s).ERR = s.ERR := rfl
@[simp] theorem initEffect_MSG (s : State) : (initEffect s).MSG = s.MSG := rfl
@[simp] theorem initEffect_PMB (s : State) : (initEffect s).PMB = s.PMB := rfl
@[simp] theorem initEffect_WSEQ (s : State) : (initEffect s).WSEQ = s.WSEQ := rfl
@[simp] theorem initEffect_pending (s : State) : (initEffect s).pending = s.pending := rfl
@[simp] theorem initEffect_response (s : State) : (initEffect s).response = s.response := rfl
@[simp] theorem initEffect_draws (s : State) : (initEffect s).draws = s.draws := rfl

/-! ### padEffect -/

@[simp] theorem padEffect_cfg (s : State) : (padEffect s).cfg = s.cfg := rfl
@[simp] theorem padEffect_H (s : State) : (padEffect s).H = s.H := rfl
@[simp] theorem padEffect_V (s : State) : (padEffect s).V = s.V := rfl
@[simp] theorem padEffect_W (s : State) : (padEffect s).W = s.W := rfl
@[simp] theorem padEffect_DIG (s : State) : (padEffect s).DIG = s.DIG := rfl
@[simp] theorem padEffect_LEN (s : State) : (padEffect s).LEN = s.LEN := rfl
@[simp] theorem padEffect_PLEN (s : State) : (padEffect s).PLEN = BitVec.ofNat 64 (paddedLength s.LEN.toNat) := rfl
@[simp] theorem padEffect_WLEN (s : State) : (padEffect s).WLEN = s.WLEN := rfl
@[simp] theorem padEffect_BP (s : State) : (padEffect s).BP = s.BP := rfl
@[simp] theorem padEffect_TS (s : State) : (padEffect s).TS = s.TS := rfl
@[simp] theorem padEffect_TR (s : State) : (padEffect s).TR = s.TR := rfl
@[simp] theorem padEffect_ERR (s : State) : (padEffect s).ERR = s.ERR := rfl
@[simp] theorem padEffect_MSG (s : State) : (padEffect s).MSG = s.MSG := rfl
@[simp] theorem padEffect_WSEQ (s : State) : (padEffect s).WSEQ = s.WSEQ := rfl
@[simp] theorem padEffect_pending (s : State) : (padEffect s).pending = s.pending := rfl
@[simp] theorem padEffect_response (s : State) : (padEffect s).response = s.response := rfl
@[simp] theorem padEffect_draws (s : State) : (padEffect s).draws = s.draws + 1 := rfl

/-! ### toWordsEffect -/

@[simp] theorem toWordsEffect_cfg (s : State) : (toWordsEffect s).cfg = s.cfg := rfl
@[simp] theorem toWordsEffect_H (s : State) : (toWordsEffect s).H = s.H := rfl
@[simp] theorem toWordsEffect_V (s : State) : (toWordsEffect s).V = s.V := rfl
@[simp] theorem toWordsEffect_W (s : State) : (toWordsEffect s).W = s.W := rfl
@[simp] theorem toWordsEffect_DIG (s : State) : (toWordsEffect s).DIG = s.DIG := rfl
@[simp] theorem toWordsEffect_LEN (s : State) : (toWordsEffect s).LEN = s.LEN := rfl
@[simp] theorem toWordsEffect_PLEN (s : State) : (toWordsEffect s).PLEN = s.PLEN := rfl
@[simp] theorem toWordsEffect_WLEN (s : State) : (toWordsEffect s).WLEN = BitVec.ofNat 64 (s.PLEN.toNat / 4) := rfl
@[simp] theorem toWordsEffect_BP (s : State) : (toWordsEffect s).BP = s.BP := rfl
@[simp] theorem toWordsEffect_TS (s : State) : (toWordsEffect s).TS = s.TS := rfl
@[simp] theorem toWordsEffect_TR (s : State) : (toWordsEffect s).TR = s.TR := rfl
@[simp] theorem toWordsEffect_ERR (s : State) : (toWordsEffect s).ERR = s.ERR := rfl
@[simp] theorem toWordsEffect_MSG (s : State) : (toWordsEffect s).MSG = s.MSG := rfl
@[simp] theorem toWordsEffect_PMB (s : State) : (toWordsEffect s).PMB = s.PMB := rfl
@[simp] theorem toWordsEffect_pending (s : State) : (toWordsEffect s).pending = s.pending := rfl
@[simp] theorem toWordsEffect_response (s : State) : (toWordsEffect s).response = s.response := rfl
@[simp] theorem toWordsEffect_draws (s : State) : (toWordsEffect s).draws = s.draws + 1 := rfl

/-! ### toBytesEffect -/

@[simp] theorem toBytesEffect_cfg (s : State) : (toBytesEffect s).cfg = s.cfg := rfl
@[simp] theorem toBytesEffect_H (s : State) : (toBytesEffect s).H = s.H := rfl
@[simp] theorem toBytesEffect_V (s : State) : (toBytesEffect s).V = s.V := rfl
@[simp] theorem toBytesEffect_W (s : State) : (toBytesEffect s).W = s.W := rfl
@[simp] theorem toBytesEffect_DIG (s : State) : (toBytesEffect s).DIG = s.DIG := rfl
@[simp] theorem toBytesEffect_LEN (s : State) : (toBytesEffect s).LEN = s.LEN := rfl
@[simp] theorem toBytesEffect_PLEN (s : State) : (toBytesEffect s).PLEN = BitVec.ofNat 64 (4 * s.WLEN.toNat) := rfl
@[simp] theorem toBytesEffect_WLEN (s : State) : (toBytesEffect s).WLEN = s.WLEN := rfl
@[simp] theorem toBytesEffect_BP (s : State) : (toBytesEffect s).BP = s.BP := rfl
@[simp] theorem toBytesEffect_TS (s : State) : (toBytesEffect s).TS = s.TS := rfl
@[simp] theorem toBytesEffect_TR (s : State) : (toBytesEffect s).TR = s.TR := rfl
@[simp] theorem toBytesEffect_ERR (s : State) : (toBytesEffect s).ERR = s.ERR := rfl
@[simp] theorem toBytesEffect_MSG (s : State) : (toBytesEffect s).MSG = s.MSG := rfl
@[simp] theorem toBytesEffect_WSEQ (s : State) : (toBytesEffect s).WSEQ = s.WSEQ := rfl
@[simp] theorem toBytesEffect_pending (s : State) : (toBytesEffect s).pending = s.pending := rfl
@[simp] theorem toBytesEffect_response (s : State) : (toBytesEffect s).response = s.response := rfl
@[simp] theorem toBytesEffect_draws (s : State) : (toBytesEffect s).draws = s.draws + 1 := rfl

/-! ### takeBlock -/

@[simp] theorem takeBlock_cfg (s : State) : (takeBlock s).cfg = s.cfg := rfl
@[simp] theorem takeBlock_H (s : State) : (takeBlock s).H = s.H := rfl
@[simp] theorem takeBlock_V (s : State) : (takeBlock s).V = s.V := rfl
@[simp] theorem takeBlock_DIG (s : State) : (takeBlock s).DIG = s.DIG := rfl
@[simp] theorem takeBlock_LEN (s : State) : (takeBlock s).LEN = s.LEN := rfl
@[simp] theorem takeBlock_PLEN (s : State) : (takeBlock s).PLEN = s.PLEN := rfl
@[simp] theorem takeBlock_WLEN (s : State) : (takeBlock s).WLEN = s.WLEN := rfl
@[simp] theorem takeBlock_BP (s : State) : (takeBlock s).BP = s.BP := rfl
@[simp] theorem takeBlock_TS (s : State) : (takeBlock s).TS = s.TS := rfl
@[simp] theorem takeBlock_TR (s : State) : (takeBlock s).TR = s.TR := rfl
@[simp] theorem takeBlock_ERR (s : State) : (takeBlock s).ERR = s.ERR := rfl
@[simp] theorem takeBlock_MSG (s : State) : (takeBlock s).MSG = s.MSG := rfl
@[simp] theorem takeBlock_PMB (s : State) : (takeBlock s).PMB = s.PMB := rfl
@[simp] theorem takeBlock_WSEQ (s : State) : (takeBlock s).WSEQ = s.WSEQ := rfl
@[simp] theorem takeBlock_pending (s : State) : (takeBlock s).pending = s.pending := rfl
@[simp] theorem takeBlock_response (s : State) : (takeBlock s).response = s.response := rfl
@[simp] theorem takeBlock_draws (s : State) : (takeBlock s).draws = s.draws + 1 := rfl

/-! ### scheduleStep -/

@[simp] theorem scheduleStep_cfg (s : State) (t : Nat) : (scheduleStep s t).cfg = s.cfg := rfl
@[simp] theorem scheduleStep_H (s : State) (t : Nat) : (scheduleStep s t).H = s.H := rfl
@[simp] theorem scheduleStep_V (s : State) (t : Nat) : (scheduleStep s t).V = s.V := rfl
@[simp] theorem scheduleStep_DIG (s : State) (t : Nat) : (scheduleStep s t).DIG = s.DIG := rfl
@[simp] theorem scheduleStep_LEN (s : State) (t : Nat) : (scheduleStep s t).LEN = s.LEN := rfl
@[simp] theorem scheduleStep_PLEN (s : State) (t : Nat) : (scheduleStep s t).PLEN = s.PLEN := rfl
@[simp] theorem scheduleStep_WLEN (s : State) (t : Nat) : (scheduleStep s t).WLEN = s.WLEN := rfl
@[simp] theorem scheduleStep_BP (s : State) (t : Nat) : (scheduleStep s t).BP = s.BP := rfl
@[simp] theorem scheduleStep_TS (s : State) (t : Nat) : (scheduleStep s t).TS = s.TS := rfl
@[simp] theorem scheduleStep_TR (s : State) (t : Nat) : (scheduleStep s t).TR = s.TR := rfl
@[simp] theorem scheduleStep_ERR (s : State) (t : Nat) : (scheduleStep s t).ERR = s.ERR := rfl
@[simp] theorem scheduleStep_MSG (s : State) (t : Nat) : (scheduleStep s t).MSG = s.MSG := rfl
@[simp] theorem scheduleStep_PMB (s : State) (t : Nat) : (scheduleStep s t).PMB = s.PMB := rfl
@[simp] theorem scheduleStep_WSEQ (s : State) (t : Nat) : (scheduleStep s t).WSEQ = s.WSEQ := rfl
@[simp] theorem scheduleStep_pending (s : State) (t : Nat) : (scheduleStep s t).pending = s.pending := rfl
@[simp] theorem scheduleStep_response (s : State) (t : Nat) : (scheduleStep s t).response = s.response := rfl
@[simp] theorem scheduleStep_draws (s : State) (t : Nat) : (scheduleStep s t).draws = s.draws + 1 := rfl

/-! ### loadWorking -/

@[simp] theorem loadWorking_cfg (s : State) : (loadWorking s).cfg = s.cfg := rfl
@[simp] theorem loadWorking_H (s : State) : (loadWorking s).H = s.H := rfl
@[simp] theorem loadWorking_W (s : State) : (loadWorking s).W = s.W := rfl
@[simp] theorem loadWorking_DIG (s : State) : (loadWorking s).DIG = s.DIG := rfl
@[simp] theorem loadWorking_LEN (s : State) : (loadWorking s).LEN = s.LEN := rfl
@[simp] theorem loadWorking_PLEN (s : State) : (loadWorking s).PLEN = s.PLEN := rfl
@[simp] theorem loadWorking_WLEN (s : State) : (loadWorking s).WLEN = s.WLEN := rfl
@[simp] theorem loadWorking_BP (s : State) : (loadWorking s).BP = s.BP := rfl
@[simp] theorem loadWorking_TS (s : State) : (loadWorking s).TS = s.TS := rfl
@[simp] theorem loadWorking_TR (s : State) : (loadWorking s).TR = s.TR := rfl
@[simp] theorem loadWorking_ERR (s : State) : (loadWorking s).ERR = s.ERR := rfl
@[simp] theorem loadWorking_MSG (s : State) : (loadWorking s).MSG = s.MSG := rfl
@[simp] theorem loadWorking_PMB (s : State) : (loadWorking s).PMB = s.PMB := rfl
@[simp] theorem loadWorking_WSEQ (s : State) : (loadWorking s).WSEQ = s.WSEQ := rfl
@[simp] theorem loadWorking_pending (s : State) : (loadWorking s).pending = s.pending := rfl
@[simp] theorem loadWorking_response (s : State) : (loadWorking s).response = s.response := rfl
@[simp] theorem loadWorking_draws (s : State) : (loadWorking s).draws = s.draws + 1 := rfl

/-! ### roundStep -/

@[simp] theorem roundStep_cfg (s : State) (t : Nat) : (roundStep s t).cfg = s.cfg := rfl
@[simp] theorem roundStep_H (s : State) (t : Nat) : (roundStep s t).H = s.H := rfl
@[simp] theorem roundStep_W (s : State) (t : Nat) : (roundStep s t).W = s.W := rfl
@[simp] theorem roundStep_DIG (s : State) (t : Nat) : (roundStep s t).DIG = s.DIG := rfl
@[simp] theorem roundStep_LEN (s : State) (t : Nat) : (roundStep s t).LEN = s.LEN := rfl
@[simp] theorem roundStep_PLEN (s : State) (t : Nat) : (roundStep s t).PLEN = s.PLEN := rfl
@[simp] theorem roundStep_WLEN (s : State) (t : Nat) : (roundStep s t).WLEN = s.WLEN := rfl
@[simp] theorem roundStep_BP (s : State) (t : Nat) : (roundStep s t).BP = s.BP := rfl
@[simp] theorem roundStep_TS (s : State) (t : Nat) : (roundStep s t).TS = s.TS := rfl
@[simp] theorem roundStep_TR (s : State) (t : Nat) : (roundStep s t).TR = s.TR := rfl
@[simp] theorem roundStep_ERR (s : State) (t : Nat) : (roundStep s t).ERR = s.ERR := rfl
@[simp] theorem roundStep_MSG (s : State) (t : Nat) : (roundStep s t).MSG = s.MSG := rfl
@[simp] theorem roundStep_PMB (s : State) (t : Nat) : (roundStep s t).PMB = s.PMB := rfl
@[simp] theorem roundStep_WSEQ (s : State) (t : Nat) : (roundStep s t).WSEQ = s.WSEQ := rfl
@[simp] theorem roundStep_pending (s : State) (t : Nat) : (roundStep s t).pending = s.pending := rfl
@[simp] theorem roundStep_response (s : State) (t : Nat) : (roundStep s t).response = s.response := rfl
@[simp] theorem roundStep_draws (s : State) (t : Nat) : (roundStep s t).draws = s.draws + 1 := rfl

/-! ### addBack -/

@[simp] theorem addBack_cfg (s : State) : (addBack s).cfg = s.cfg := rfl
@[simp] theorem addBack_V (s : State) : (addBack s).V = s.V := rfl
@[simp] theorem addBack_W (s : State) : (addBack s).W = s.W := rfl
@[simp] theorem addBack_DIG (s : State) : (addBack s).DIG = s.DIG := rfl
@[simp] theorem addBack_LEN (s : State) : (addBack s).LEN = s.LEN := rfl
@[simp] theorem addBack_PLEN (s : State) : (addBack s).PLEN = s.PLEN := rfl
@[simp] theorem addBack_WLEN (s : State) : (addBack s).WLEN = s.WLEN := rfl
@[simp] theorem addBack_BP (s : State) : (addBack s).BP = s.BP := rfl
@[simp] theorem addBack_TS (s : State) : (addBack s).TS = s.TS := rfl
@[simp] theorem addBack_TR (s : State) : (addBack s).TR = s.TR := rfl
@[simp] theorem addBack_ERR (s : State) : (addBack s).ERR = s.ERR := rfl
@[simp] theorem addBack_MSG (s : State) : (addBack s).MSG = s.MSG := rfl
@[simp] theorem addBack_PMB (s : State) : (addBack s).PMB = s.PMB := rfl
@[simp] theorem addBack_WSEQ (s : State) : (addBack s).WSEQ = s.WSEQ := rfl
@[simp] theorem addBack_pending (s : State) : (addBack s).pending = s.pending := rfl
@[simp] theorem addBack_response (s : State) : (addBack s).response = s.response := rfl
@[simp] theorem addBack_draws (s : State) : (addBack s).draws = s.draws + 1 := rfl

/-! ### digestEffect -/

@[simp] theorem digestEffect_cfg (s : State) : (digestEffect s).cfg = s.cfg := rfl
@[simp] theorem digestEffect_H (s : State) : (digestEffect s).H = s.H := rfl
@[simp] theorem digestEffect_V (s : State) : (digestEffect s).V = s.V := rfl
@[simp] theorem digestEffect_W (s : State) : (digestEffect s).W = s.W := rfl
@[simp] theorem digestEffect_LEN (s : State) : (digestEffect s).LEN = s.LEN := rfl
@[simp] theorem digestEffect_PLEN (s : State) : (digestEffect s).PLEN = s.PLEN := rfl
@[simp] theorem digestEffect_WLEN (s : State) : (digestEffect s).WLEN = s.WLEN := rfl
@[simp] theorem digestEffect_BP (s : State) : (digestEffect s).BP = s.BP := rfl
@[simp] theorem digestEffect_TS (s : State) : (digestEffect s).TS = s.TS := rfl
@[simp] theorem digestEffect_TR (s : State) : (digestEffect s).TR = s.TR := rfl
@[simp] theorem digestEffect_ERR (s : State) : (digestEffect s).ERR = s.ERR := rfl
@[simp] theorem digestEffect_MSG (s : State) : (digestEffect s).MSG = s.MSG := rfl
@[simp] theorem digestEffect_PMB (s : State) : (digestEffect s).PMB = s.PMB := rfl
@[simp] theorem digestEffect_WSEQ (s : State) : (digestEffect s).WSEQ = s.WSEQ := rfl
@[simp] theorem digestEffect_pending (s : State) : (digestEffect s).pending = s.pending := rfl
@[simp] theorem digestEffect_response (s : State) : (digestEffect s).response = s.response := rfl
@[simp] theorem digestEffect_draws (s : State) : (digestEffect s).draws = s.draws + 1 := rfl

end Sys2Proof.Machine
end

