-- ==== Sys2Proof/Laws/Functions.lean ====
section
/-! SUPPORT. The small lemmas of the pure functions: lengths, elements, and that `be32` and `wordBE` undo each other. -/

namespace Sys2Proof.Machine

/-! ### Byte order -/

@[simp] theorem be32_length (w : Word) : (be32 w).length = 4 := rfl

@[simp] theorem be64_length (v : BitVec 64) : (be64 v).length = 8 := rfl

theorem wordBE_be32 (w : Word) :
    wordBE (w.extractLsb' 24 8) (w.extractLsb' 16 8) (w.extractLsb' 8 8) (w.extractLsb' 0 8) = w := by
  apply BitVec.eq_of_getLsbD_eq
  intro i hi
  simp only [wordBE, BitVec.getLsbD_append, BitVec.getLsbD_extractLsb']
  by_cases h1 : i < 8
  · simp [h1]
  · by_cases h2 : i < 16
    · have : i - 8 < 8 := by omega
      simp [h1, this]
      congr 1; omega
    · by_cases h3 : i < 24
      · have a : ¬ i - 8 < 8 := by omega
        have b : i - 8 - 8 < 8 := by omega
        simp [h1, a, b]
        congr 1; omega
      · have a : ¬ i - 8 < 8 := by omega
        have b : ¬ i - 8 - 8 < 8 := by omega
        have c : i - 8 - 8 - 8 < 8 := by omega
        simp [h1, a, b, c]
        congr 1; omega

theorem be32_wordBE (b0 b1 b2 b3 : Byte) : be32 (wordBE b0 b1 b2 b3) = [b0, b1, b2, b3] := by
  simp only [be32, wordBE, List.cons.injEq, and_true]
  refine ⟨?_, ?_, ?_, ?_⟩ <;>
  · apply BitVec.eq_of_getLsbD_eq
    intro i hi
    simp only [BitVec.getLsbD_extractLsb', BitVec.getLsbD_append, hi, decide_true, Bool.true_and]
    simp [hi, show ¬ 8 + i < 8 by omega, show ¬ 16 + i < 8 by omega, show ¬ 24 + i < 8 by omega,
      show ¬ 16 + i - 8 < 8 by omega, show ¬ 24 + i - 8 < 8 by omega, show ¬ 24 + i - 8 - 8 < 8 by omega,
      show 16 + i - 8 - 8 = i by omega, show 24 + i - 8 - 8 - 8 = i by omega]

theorem wordBE_toNat (b0 b1 b2 b3 : Byte) :
    (wordBE b0 b1 b2 b3).toNat = b0.toNat * 2 ^ 24 + b1.toNat * 2 ^ 16 + b2.toNat * 2 ^ 8 + b3.toNat := by
  have h1 := b1.isLt
  have h2 := b2.isLt
  have h3 := b3.isLt
  have e : ∀ x y : Nat, y < 2 ^ 8 → x <<< 8 ||| y = x * 2 ^ 8 + y := by
    intro x y hy
    rw [← Nat.shiftLeft_add_eq_or_of_lt hy, Nat.shiftLeft_eq]
  simp only [wordBE, BitVec.toNat_append]
  rw [e _ _ h1, e _ _ h2, e _ _ h3]
  omega

/-! ### The halves of a 64-bit register (10_state.md rule R38) -/

theorem append_getLsbD (x y : Word) (j : Nat) :
    BitVec.getLsbD (w := 64) (x ++ y) j = if j < 32 then y.getLsbD j else x.getLsbD (j - 32) :=
  (BitVec.getLsbD_append (x := x) (y := y)).trans (by cases h : decide (j < 32) <;> simp_all)

@[simp] theorem low32_setLow32 (r : BitVec 64) (v : Word) : low32 (setLow32 r v) = v := by
  apply BitVec.eq_of_getLsbD_eq
  intro j hj
  simp only [low32, setLow32, BitVec.getLsbD_extractLsb', append_getLsbD]
  simp [hj]

@[simp] theorem high32_setLow32 (r : BitVec 64) (v : Word) : high32 (setLow32 r v) = high32 r := by
  apply BitVec.eq_of_getLsbD_eq
  intro j hj
  simp only [high32, setLow32, BitVec.getLsbD_extractLsb', append_getLsbD]
  simp [hj]

@[simp] theorem low32_setHigh32 (r : BitVec 64) (v : Word) : low32 (setHigh32 r v) = low32 r := by
  apply BitVec.eq_of_getLsbD_eq
  intro j hj
  simp only [low32, setHigh32, BitVec.getLsbD_extractLsb', append_getLsbD]
  simp [hj]

@[simp] theorem high32_setHigh32 (r : BitVec 64) (v : Word) : high32 (setHigh32 r v) = v := by
  apply BitVec.eq_of_getLsbD_eq
  intro j hj
  simp only [high32, setHigh32, low32, BitVec.getLsbD_extractLsb', append_getLsbD]
  simp [hj]

/-! ### Padding -/

theorem paddedLength_eq (L : Nat) : paddedLength L = 64 * ((L + 72) / 64) := by
  unfold paddedLength zeroFill; omega

/-- The capacity of PMB is the padded length of the longest message (00_scope.md rule R6). -/
theorem pmbCap_eq (c : Config) : pmbCap c = paddedLength c.msgCap := by
  rw [paddedLength_eq, pmbCap]

theorem paddedLength_mono {L M : Nat} (h : L ≤ M) : paddedLength L ≤ paddedLength M := by
  rw [paddedLength_eq, paddedLength_eq]; omega

@[simp] theorem pad_length (m : List Byte) : (pad m).length = paddedLength m.length := by
  simp [pad, paddedLength]; omega

/-- `pad(m)` byte by byte (R111). -/
theorem pad_getElem? (m : List Byte) (i : Nat) :
    (pad m)[i]? =
      if i < m.length then m[i]?
      else if i = m.length then some 0x80
      else if i < m.length + 1 + zeroFill m.length then some 0x00
      else (be64 (BitVec.ofNat 64 (8 * m.length)))[i - (m.length + 1 + zeroFill m.length)]? := by
  unfold pad
  by_cases h1 : i < m.length
  · rw [if_pos h1, List.getElem?_append_left (by simp; omega), List.getElem?_append_left (by simp; omega),
      List.getElem?_append_left h1]
  · rw [if_neg h1]
    by_cases h2 : i = m.length
    · rw [if_pos h2, List.getElem?_append_left (by simp; omega), List.getElem?_append_left (by simp; omega),
        List.getElem?_append_right (by omega)]
      simp [h2]
    · rw [if_neg h2]
      by_cases h3 : i < m.length + 1 + zeroFill m.length
      · rw [if_pos h3, List.getElem?_append_left (by simp; omega), List.getElem?_append_right (by simp; omega),
          List.getElem?_replicate, if_pos (by simp; omega)]
      · rw [if_neg h3, List.getElem?_append_right (by simp; omega)]
        congr 1
        simp
        omega

/-! ### Word reorder -/

theorem groupWords_length : ∀ bs : List Byte, (groupWords bs).length = bs.length / 4
  | [] => by simp [groupWords]
  | [_] => by simp [groupWords]
  | [_, _] => by simp [groupWords]
  | [_, _, _] => by simp [groupWords]
  | _ :: _ :: _ :: _ :: bs => by
    have := groupWords_length bs
    simp only [groupWords, List.length_cons, this]; omega

theorem groupWords_getElem? : ∀ (bs : List Byte) (i : Nat), i < bs.length / 4 →
    (groupWords bs)[i]? =
      some (wordBE (bs.getD (4 * i) 0) (bs.getD (4 * i + 1) 0) (bs.getD (4 * i + 2) 0) (bs.getD (4 * i + 3) 0))
  | [], _, h => by simp at h
  | [_], _, h => by simp at h
  | [_, _], _, h => by simp at h
  | [_, _, _], _, h => by simp at h
  | b0 :: b1 :: b2 :: b3 :: bs, i, h => by
    cases i with
    | zero => rfl
    | succ i =>
      have := groupWords_getElem? bs i (by simp only [List.length_cons] at h; omega)
      rw [groupWords, List.getElem?_cons_succ, this]
      rfl

@[simp] theorem toBytes_nil : toBytes [] = [] := rfl

theorem toBytes_cons (w : Word) (ws : List Word) : toBytes (w :: ws) = be32 w ++ toBytes ws := rfl

@[simp] theorem toBytes_length (ws : List Word) : (toBytes ws).length = 4 * ws.length := by
  induction ws with
  | nil => rfl
  | cons w ws ih => rw [toBytes_cons, List.length_append, ih, be32_length, List.length_cons]; omega

/-- `toBytes(Ws)` byte by byte (R121): byte `4i + j` is byte `j` of word `i`. -/
theorem toBytes_getElem? (ws : List Word) : ∀ (i j : Nat), j < 4 → i < ws.length →
    (toBytes ws)[4 * i + j]? = (be32 (ws.getD i 0))[j]? := by
  induction ws with
  | nil => intro i j _ h; simp at h
  | cons w ws ih =>
    intro i j hj h
    rw [toBytes_cons]
    cases i with
    | zero => rw [List.getElem?_append_left (by simp; omega)]; simp
    | succ i =>
      rw [List.getElem?_append_right (by simp; omega), be32_length,
        show 4 * (i + 1) + j - 4 = 4 * i + j by omega, ih i j hj (by simpa using h)]
      rfl

/-! ### Schedule -/

@[simp] theorem extendSchedule_length (k : Nat) : ∀ S : List Word, (extendSchedule k S).length = S.length + k := by
  induction k with
  | zero => intro S; rfl
  | succ k ih => intro S; rw [extendSchedule, ih]; simp; omega

@[simp] theorem schedule_length (blk : List Word) : (schedule blk).length = blk.length + 48 := by
  rw [schedule, extendSchedule_length]

/-- The words computed so far stay what they are. -/
theorem extendSchedule_getElem?_lt (k : Nat) : ∀ (S : List Word) (i : Nat), i < S.length →
    (extendSchedule k S)[i]? = S[i]? := by
  induction k with
  | zero => intro S i _; rfl
  | succ k ih =>
    intro S i h
    rw [extendSchedule, ih _ _ (by simp; omega), List.getElem?_append_left h]

theorem extendSchedule_getD_lt (k : Nat) (S : List Word) (i : Nat) (h : i < S.length) :
    (extendSchedule k S).getD i 0 = S.getD i 0 := by
  rw [List.getD_eq_getElem?_getD, List.getD_eq_getElem?_getD, extendSchedule_getElem?_lt k S i h]

/-! ### Rounds and the fold over blocks -/

@[simp] theorem Work.toList_length (v : Work) : v.toList.length = 8 := rfl

@[simp] theorem Work.ofList_toList (v : Work) : Work.ofList v.toList = v := rfl

@[simp] theorem H0_length : H0.length = 8 := rfl

theorem roundConstants_length : roundConstants.length = 64 := rfl

theorem compress_length (s blk : List Word) (h : s.length = 8) : (compress s blk).length = 8 := by
  simp [compress, h]

theorem foldBlocks_length (words : List Word) : ∀ n, (foldBlocks words n).length = 8
  | 0 => rfl
  | n + 1 => by rw [foldBlocks]; exact compress_length _ _ (foldBlocks_length words n)

theorem sha256_length (m : List Byte) : (sha256 m).length = 32 := by
  simp [sha256, foldBlocks_length]

end Sys2Proof.Machine
end

