-- ==== Sys2Proof/Laws/Effects.lean ====
section
/-! SUPPORT. What the commands' effects do: which fields they leave alone (one equation per effect), and what the
register files hold after the counted loops. -/

namespace Sys2Proof.Machine

/-! ### Reads -/

theorem readH_of {s : State} {i : Nat} {v : Word} (h : RegFile.content s.H i = some v) : s.readH i = v := by
  simp [State.readH, h]

theorem readV_of {s : State} {i : Nat} {v : Word} (h : RegFile.content s.V i = some v) : s.readV i = v := by
  simp [State.readV, h]

theorem readW_of {s : State} {i : Nat} {v : Word} (h : RegFile.content s.W i = some v) : s.readW i = v := by
  simp [State.readW, h]

theorem readDig_of {s : State} {i : Nat} {v : Byte} (h : RegFile.content s.DIG i = some v) : s.readDig i = v := by
  simp [State.readDig, h]

theorem readMsg_of {s : State} {i : Nat} {v : Byte} (h : Memory.content s.MSG i = some v) : s.readMsg i = v := by
  simp [State.readMsg, h]

theorem readPmb_of {s : State} {i : Nat} {v : Byte} (h : Memory.content s.PMB i = some v) : s.readPmb i = v := by
  simp [State.readPmb, h]

theorem readWseq_of {s : State} {i : Nat} {v : Word} (h : Memory.content s.WSEQ i = some v) : s.readWseq i = v := by
  simp [State.readWseq, h]

@[simp] theorem message_length (s : State) : s.message.length = s.LEN.toNat := by simp [State.message]

@[simp] theorem paddedBytes_length (s : State) : s.paddedBytes.length = s.PLEN.toNat := by simp [State.paddedBytes]

@[simp] theorem wordSeq_length (s : State) : s.wordSeq.length = s.WLEN.toNat := by simp [State.wordSeq]

@[simp] theorem block_length (s : State) : s.block.length = 16 := by simp [State.block]

@[simp] theorem running_length (s : State) : s.running.length = 8 := by simp [State.running]

theorem message_getElem? (s : State) (i : Nat) (h : i < s.LEN.toNat) : s.message[i]? = some (s.readMsg i) := by
  simp [State.message, h]

theorem paddedBytes_getElem? (s : State) (i : Nat) (h : i < s.PLEN.toNat) :
    s.paddedBytes[i]? = some (s.readPmb i) := by
  simp [State.paddedBytes, h]

theorem wordSeq_getElem? (s : State) (i : Nat) (h : i < s.WLEN.toNat) : s.wordSeq[i]? = some (s.readWseq i) := by
  simp [State.wordSeq, h]

theorem block_getElem? (s : State) (i : Nat) (h : i < 16) :
    s.block[i]? = some (s.readWseq (16 * s.BP.toNat + i)) := by
  simp [State.block, h]

theorem running_getElem? (s : State) (i : Nat) (h : i < 8) : s.running[i]? = some (s.readH i) := by
  simp [State.running, h]

/-! ### Frames of the single effects -/

theorem padEffect_frame (s : State) :
    padEffect s = { s with PMB := (padEffect s).PMB, PLEN := (padEffect s).PLEN, draws := s.draws + 1 } := rfl

theorem toWordsEffect_frame (s : State) :
    toWordsEffect s =
      { s with WSEQ := (toWordsEffect s).WSEQ, WLEN := (toWordsEffect s).WLEN, draws := s.draws + 1 } := rfl

theorem toBytesEffect_frame (s : State) :
    toBytesEffect s =
      { s with PMB := (toBytesEffect s).PMB, PLEN := (toBytesEffect s).PLEN, draws := s.draws + 1 } := rfl

theorem takeBlock_frame (s : State) : takeBlock s = { s with W := (takeBlock s).W, draws := s.draws + 1 } := rfl

theorem scheduleStep_frame (s : State) (t : Nat) :
    scheduleStep s t = { s with W := (scheduleStep s t).W, draws := s.draws + 1 } := rfl

theorem loadWorking_frame (s : State) : loadWorking s = { s with V := (loadWorking s).V, draws := s.draws + 1 } := rfl

theorem roundStep_frame (s : State) (t : Nat) :
    roundStep s t = { s with V := (roundStep s t).V, draws := s.draws + 1 } := rfl

theorem addBack_frame (s : State) : addBack s = { s with H := (addBack s).H, draws := s.draws + 1 } := rfl

theorem initEffect_frame (s : State) : initEffect s = { s with H := (initEffect s).H, BP := 0 } := rfl

theorem digestEffect_frame (s : State) :
    digestEffect s = { s with DIG := (digestEffect s).DIG, draws := s.draws + 1 } := rfl

/-! ### Frames of the loops -/

theorem foldl_scheduleStep_frame (l : List Nat) : ∀ s : State,
    l.foldl scheduleStep s = { s with W := (l.foldl scheduleStep s).W, draws := s.draws + l.length } := by
  induction l with
  | nil => intro s; rfl
  | cons t l ih =>
    intro s
    rw [List.foldl_cons]
    refine (ih (scheduleStep s t)).trans ?_
    simp only [scheduleStep, State.nextDraw, List.length_cons, Nat.add_assoc, Nat.add_comm l.length 1]

theorem foldl_roundStep_frame (l : List Nat) : ∀ s : State,
    l.foldl roundStep s = { s with V := (l.foldl roundStep s).V, draws := s.draws + l.length } := by
  induction l with
  | nil => intro s; rfl
  | cons t l ih =>
    intro s
    rw [List.foldl_cons]
    refine (ih (roundStep s t)).trans ?_
    simp only [roundStep, State.nextDraw, List.length_cons, Nat.add_assoc, Nat.add_comm l.length 1]

theorem scheduleFrom_frame (lo : Nat) (s : State) :
    scheduleFrom lo s = { s with W := (scheduleFrom lo s).W, draws := s.draws + (64 - lo) } := by
  have := foldl_scheduleStep_frame (List.range' lo (64 - lo)) s
  rwa [List.length_range'] at this

theorem roundsFrom_frame (lo : Nat) (s : State) :
    roundsFrom lo s = { s with V := (roundsFrom lo s).V, draws := s.draws + (64 - lo) } := by
  have := foldl_roundStep_frame (List.range' lo (64 - lo)) s
  rwa [List.length_range'] at this

/-- COMPRESS changes H, V, W, TS, TR and BP, and makes 115 draws (R44, R151). -/
theorem compressEffect_frame (s : State) :
    compressEffect s =
      { s with
        H := (compressEffect s).H
        V := (compressEffect s).V
        W := (compressEffect s).W
        TS := 64
        TR := 64
        BP := BitVec.ofNat 64 (s.BP.toNat + 1)
        draws := s.draws + 115 } := by
  have h1 := takeBlock_frame s
  have h2 := scheduleFrom_frame 16 (takeBlock s)
  have h3 := loadWorking_frame (scheduleFrom 16 (takeBlock s))
  have h4 := roundsFrom_frame 0 (loadWorking (scheduleFrom 16 (takeBlock s)))
  have h5 := addBack_frame (roundsFrom 0 (loadWorking (scheduleFrom 16 (takeBlock s))))
  unfold compressEffect
  generalize takeBlock s = s1 at *
  generalize scheduleFrom 16 s1 = s2 at *
  generalize loadWorking s2 = s3 at *
  generalize roundsFrom 0 s3 = s4 at *
  generalize addBack s4 = s5 at *
  rw [h5, h4, h3, h2, h1]

/-- The block loop of HASH changes what COMPRESS changes (R174). -/
theorem compressBlocks_frame (n : Nat) : ∀ s : State,
    compressBlocks n s =
      { s with
        H := (compressBlocks n s).H
        V := (compressBlocks n s).V
        W := (compressBlocks n s).W
        TS := (compressBlocks n s).TS
        TR := (compressBlocks n s).TR
        BP := (compressBlocks n s).BP
        draws := (compressBlocks n s).draws } := by
  induction n with
  | zero => intro s; rfl
  | succ n ih =>
    intro s
    unfold compressBlocks
    split
    · refine (ih (compressEffect s)).trans ?_
      rw [compressEffect_frame s]
    · rfl

/-- HASH leaves the configuration, LEN, ERR, MSG and the host interface alone (R174). -/
theorem hashEffect_frame (s : State) :
    hashEffect s =
      { s with
        H := (hashEffect s).H
        V := (hashEffect s).V
        W := (hashEffect s).W
        DIG := (hashEffect s).DIG
        PLEN := (hashEffect s).PLEN
        WLEN := (hashEffect s).WLEN
        BP := (hashEffect s).BP
        TS := (hashEffect s).TS
        TR := (hashEffect s).TR
        PMB := (hashEffect s).PMB
        WSEQ := (hashEffect s).WSEQ
        draws := (hashEffect s).draws } := by
  have h1 := initEffect_frame s
  have h2 := padEffect_frame (initEffect s)
  have h3 := toWordsEffect_frame (padEffect (initEffect s))
  unfold hashEffect
  simp only
  generalize initEffect s = s1 at *
  generalize padEffect s1 = s2 at *
  generalize toWordsEffect s2 = s3 at *
  have h4 := compressBlocks_frame (s3.WLEN.toNat / 16) s3
  generalize compressBlocks (s3.WLEN.toNat / 16) s3 = s4 at *
  have h5 := digestEffect_frame s4
  generalize digestEffect s4 = s5 at *
  rw [h5, h4, h3, h2, h1]

/-! ### What the register files hold after an effect -/

theorem takeBlock_W (s : State) (i : Nat) :
    RegFile.content (takeBlock s).W i =
      if i < 16 then some (s.readWseq (16 * s.BP.toNat + i)) else RegFile.content s.W i := by
  show RegFile.content (RegFile.writeMany s.W 0 s.block) i = _
  rw [RegFile.content_writeMany _ _ _ _ (by simp)]
  by_cases h : i < 16
  · rw [if_pos (by simpa using h), if_pos h, Nat.sub_zero, block_getElem? s i h]
  · rw [if_neg (by simpa using h), if_neg h]

theorem scheduleStep_W (s : State) (t j : Nat) (h : t < 64) :
    RegFile.content (scheduleStep s t).W j =
      if j = t then
        some (scheduleWord (s.readW (t - 2)) (s.readW (t - 7)) (s.readW (t - 15)) (s.readW (t - 16)))
      else RegFile.content s.W j := by
  show RegFile.content (RegFile.write s.W t _) j = _
  rw [RegFile.content_write _ _ _ _ h]

theorem loadWorking_V (s : State) (i : Nat) (h : i < 8) :
    RegFile.content (loadWorking s).V i = some (s.readH i) := by
  show RegFile.content (RegFile.writeMany s.V 0 s.running) i = _
  rw [RegFile.content_writeAll _ _ _ (by simp), running_getElem? s i h]

theorem roundStep_V (s : State) (t i : Nat) :
    RegFile.content (roundStep s t).V i = (sha256Round s.working (K t) (s.readW t)).toList[i]? := by
  show RegFile.content (RegFile.writeMany s.V 0 _) i = _
  rw [RegFile.content_writeAll _ _ _ (by simp)]

theorem addBack_H (s : State) (i : Nat) (h : i < 8) :
    RegFile.content (addBack s).H i = some (add32 (s.readH i) (s.readV i)) := by
  show RegFile.content (RegFile.writeMany s.H 0 _) i = _
  rw [RegFile.content_writeAll _ _ _ (by simp), List.getElem?_zipWith, running_getElem? s i h]
  interval_cases i <;> rfl

theorem initEffect_H (s : State) (i : Nat) : RegFile.content (initEffect s).H i = H0[i]? := by
  show RegFile.content (RegFile.writeMany s.H 0 H0) i = _
  rw [RegFile.content_writeAll _ _ _ (by rfl)]

theorem digestEffect_DIG (s : State) (i : Nat) :
    RegFile.content (digestEffect s).DIG i = (toBytes s.running)[i]? := by
  show RegFile.content (RegFile.writeMany s.DIG 0 _) i = _
  rw [RegFile.content_writeAll _ _ _ (by simp)]

theorem padEffect_PMB (s : State) (i : Nat) :
    Memory.content (padEffect s).PMB i =
      if i < paddedLength s.LEN.toNat then (pad s.message)[i]? else Memory.content s.PMB i := by
  show Memory.content (Memory.writeMany s.PMB 0 (pad s.message)) i = _
  rw [Memory.content_writeFrom0, pad_length, message_length]

theorem toWordsEffect_WSEQ (s : State) (i : Nat) :
    Memory.content (toWordsEffect s).WSEQ i =
      if i < s.PLEN.toNat / 4 then (groupWords s.paddedBytes)[i]? else Memory.content s.WSEQ i := by
  show Memory.content (Memory.writeMany s.WSEQ 0 (groupWords s.paddedBytes)) i = _
  rw [Memory.content_writeFrom0, groupWords_length, paddedBytes_length]

theorem toBytesEffect_PMB (s : State) (i : Nat) :
    Memory.content (toBytesEffect s).PMB i =
      if i < 4 * s.WLEN.toNat then (toBytes s.wordSeq)[i]? else Memory.content s.PMB i := by
  show Memory.content (Memory.writeMany s.PMB 0 (toBytes s.wordSeq)) i = _
  rw [Memory.content_writeFrom0, toBytes_length, wordSeq_length]

/-! ### The loops compute the functions -/

/-- The first `S.length` registers of W hold the words `S`. -/
def HoldsSchedule (s : State) (S : List Word) : Prop := ∀ j, j < S.length → RegFile.content s.W j = S[j]?

/-- V holds the working state `v`. -/
def HoldsWorking (s : State) (v : Work) : Prop := ∀ i, i < 8 → RegFile.content s.V i = v.toList[i]?

theorem HoldsSchedule.readW {s : State} {S : List Word} (h : HoldsSchedule s S) (j : Nat) (hj : j < S.length) :
    s.readW j = S.getD j 0 := by
  rw [List.getD_eq_getElem?_getD, List.getElem?_eq_getElem hj]
  exact readW_of ((h j hj).trans (List.getElem?_eq_getElem hj))

theorem HoldsWorking.working {s : State} {v : Work} (h : HoldsWorking s v) : s.working = v := by
  have r : ∀ i, i < 8 → ∀ x, v.toList[i]? = some x → s.readV i = x := fun i hi x hx => readV_of ((h i hi).trans hx)
  simp only [State.working, r 0 (by omega) v.a rfl, r 1 (by omega) v.b rfl, r 2 (by omega) v.c rfl,
    r 3 (by omega) v.d rfl, r 4 (by omega) v.e rfl, r 5 (by omega) v.f rfl, r 6 (by omega) v.g rfl,
    r 7 (by omega) v.h rfl]

/-- One schedule step appends the next word of the recurrence. -/
theorem HoldsSchedule.step {s : State} {S : List Word} (h : HoldsSchedule s S) (lo : 16 ≤ S.length)
    (hi : S.length < 64) :
    HoldsSchedule (scheduleStep s S.length)
      (S ++ [scheduleWord (S.getD (S.length - 2) 0) (S.getD (S.length - 7) 0) (S.getD (S.length - 15) 0)
        (S.getD (S.length - 16) 0)]) := by
  intro j hj
  rw [scheduleStep_W s _ _ hi, h.readW _ (by omega), h.readW _ (by omega), h.readW _ (by omega), h.readW _ (by omega)]
  by_cases hjt : j = S.length
  · subst hjt; simp
  · have hlt : j < S.length := by simp at hj; omega
    rw [if_neg hjt, List.getElem?_append_left hlt, h j hlt]

/-- The schedule loop computes `extendSchedule` in W. -/
theorem HoldsSchedule.loop (k : Nat) : ∀ {s : State} {S : List Word}, HoldsSchedule s S → 16 ≤ S.length →
    S.length + k ≤ 64 → HoldsSchedule ((List.range' S.length k).foldl scheduleStep s) (extendSchedule k S) := by
  induction k with
  | zero => intro s S h _ _; simpa only [List.range'_zero, List.foldl_nil, extendSchedule] using h
  | succ k ih =>
    intro s S h lo hi
    have h' := h.step lo (by omega)
    have := ih h' (by simp only [List.length_append]; omega) (by simp only [List.length_append, List.length_singleton]; omega)
    simp only [List.length_append, List.length_singleton] at this
    simpa only [List.range'_succ, List.foldl_cons, extendSchedule] using this

/-- The rounds `lo` to `lo + n - 1` on the schedule `S`. -/
def roundsOver (S : List Word) (lo : Nat) : Nat → Work → Work
  | 0, v => v
  | n + 1, v => roundsOver S (lo + 1) n (sha256Round v (K lo) (S.getD lo 0))

theorem roundsOver_snoc (S : List Word) (n : Nat) : ∀ (lo : Nat) (v : Work),
    roundsOver S lo (n + 1) v = sha256Round (roundsOver S lo n v) (K (lo + n)) (S.getD (lo + n) 0) := by
  induction n with
  | zero => intro lo v; rfl
  | succ n ih =>
    intro lo v
    rw [roundsOver, ih (lo + 1), roundsOver, show lo + 1 + n = lo + (n + 1) by omega]

theorem roundsOn_eq (S : List Word) (v : Work) (n : Nat) : roundsOn S v n = roundsOver S 0 n v := by
  induction n with
  | zero => rfl
  | succ n ih => rw [roundsOn, ih, roundsOver_snoc, Nat.zero_add]

theorem HoldsSchedule.roundStep {s : State} {S : List Word} (h : HoldsSchedule s S) (t : Nat) :
    HoldsSchedule (Machine.roundStep s t) S := by
  intro j hj
  rw [roundStep_W]
  exact h j hj

theorem HoldsWorking.step {s : State} {v : Work} {S : List Word} (h : HoldsWorking s v) (hS : HoldsSchedule s S)
    (t : Nat) (ht : t < S.length) : HoldsWorking (roundStep s t) (sha256Round v (K t) (S.getD t 0)) := by
  intro i _
  rw [roundStep_V, h.working, hS.readW t ht]

/-- The round loop computes `roundsOver` in V. -/
theorem HoldsWorking.loop (n : Nat) : ∀ {s : State} {v : Work} {S : List Word} (lo : Nat), HoldsWorking s v →
    HoldsSchedule s S → lo + n ≤ S.length →
    HoldsWorking ((List.range' lo n).foldl roundStep s) (roundsOver S lo n v) := by
  induction n with
  | zero => intro s v S lo h _ _; simpa only [List.range'_zero, List.foldl_nil, roundsOver] using h
  | succ n ih =>
    intro s v S lo h hS hn
    rw [List.range'_succ, List.foldl_cons, roundsOver]
    have h' := h.step hS lo (by omega)
    exact ih (lo + 1) h' (hS.roundStep lo) (by omega)

end Sys2Proof.Machine
end

