-- ==== Sys2Proof/Laws/Loops.lean ====
section
/-! SUPPORT. The fields that the counted loops and the composed commands COMPRESS and HASH leave alone, and what they set
the counters to: one lemma per field, each read off the frame equation. -/

namespace Sys2Proof.Machine

/-! ### scheduleFrom -/

@[simp] theorem scheduleFrom_cfg (lo : Nat) (s : State) : (scheduleFrom lo s).cfg = s.cfg := by rw [scheduleFrom_frame lo s]
@[simp] theorem scheduleFrom_H (lo : Nat) (s : State) : (scheduleFrom lo s).H = s.H := by rw [scheduleFrom_frame lo s]
@[simp] theorem scheduleFrom_V (lo : Nat) (s : State) : (scheduleFrom lo s).V = s.V := by rw [scheduleFrom_frame lo s]
@[simp] theorem scheduleFrom_DIG (lo : Nat) (s : State) : (scheduleFrom lo s).DIG = s.DIG := by rw [scheduleFrom_frame lo s]
@[simp] theorem scheduleFrom_LEN (lo : Nat) (s : State) : (scheduleFrom lo s).LEN = s.LEN := by rw [scheduleFrom_frame lo s]
@[simp] theorem scheduleFrom_PLEN (lo : Nat) (s : State) : (scheduleFrom lo s).PLEN = s.PLEN := by rw [scheduleFrom_frame lo s]
@[simp] theorem scheduleFrom_WLEN (lo : Nat) (s : State) : (scheduleFrom lo s).WLEN = s.WLEN := by rw [scheduleFrom_frame lo s]
@[simp] theorem scheduleFrom_BP (lo : Nat) (s : State) : (scheduleFrom lo s).BP = s.BP := by rw [scheduleFrom_frame lo s]
@[simp] theorem scheduleFrom_TS (lo : Nat) (s : State) : (scheduleFrom lo s).TS = s.TS := by rw [scheduleFrom_frame lo s]
@[simp] theorem scheduleFrom_TR (lo : Nat) (s : State) : (scheduleFrom lo s).TR = s.TR := by rw [scheduleFrom_frame lo s]
@[simp] theorem scheduleFrom_ERR (lo : Nat) (s : State) : (scheduleFrom lo s).ERR = s.ERR := by rw [scheduleFrom_frame lo s]
@[simp] theorem scheduleFrom_MSG (lo : Nat) (s : State) : (scheduleFrom lo s).MSG = s.MSG := by rw [scheduleFrom_frame lo s]
@[simp] theorem scheduleFrom_PMB (lo : Nat) (s : State) : (scheduleFrom lo s).PMB = s.PMB := by rw [scheduleFrom_frame lo s]
@[simp] theorem scheduleFrom_WSEQ (lo : Nat) (s : State) : (scheduleFrom lo s).WSEQ = s.WSEQ := by rw [scheduleFrom_frame lo s]
@[simp] theorem scheduleFrom_pending (lo : Nat) (s : State) : (scheduleFrom lo s).pending = s.pending := by rw [scheduleFrom_frame lo s]
@[simp] theorem scheduleFrom_response (lo : Nat) (s : State) : (scheduleFrom lo s).response = s.response := by rw [scheduleFrom_frame lo s]
@[simp] theorem scheduleFrom_draws (lo : Nat) (s : State) : (scheduleFrom lo s).draws = s.draws + (64 - lo) := by rw [scheduleFrom_frame lo s]

/-! ### roundsFrom -/

@[simp] theorem roundsFrom_cfg (lo : Nat) (s : State) : (roundsFrom lo s).cfg = s.cfg := by rw [roundsFrom_frame lo s]
@[simp] theorem roundsFrom_H (lo : Nat) (s : State) : (roundsFrom lo s).H = s.H := by rw [roundsFrom_frame lo s]
@[simp] theorem roundsFrom_W (lo : Nat) (s : State) : (roundsFrom lo s).W = s.W := by rw [roundsFrom_frame lo s]
@[simp] theorem roundsFrom_DIG (lo : Nat) (s : State) : (roundsFrom lo s).DIG = s.DIG := by rw [roundsFrom_frame lo s]
@[simp] theorem roundsFrom_LEN (lo : Nat) (s : State) : (roundsFrom lo s).LEN = s.LEN := by rw [roundsFrom_frame lo s]
@[simp] theorem roundsFrom_PLEN (lo : Nat) (s : State) : (roundsFrom lo s).PLEN = s.PLEN := by rw [roundsFrom_frame lo s]
@[simp] theorem roundsFrom_WLEN (lo : Nat) (s : State) : (roundsFrom lo s).WLEN = s.WLEN := by rw [roundsFrom_frame lo s]
@[simp] theorem roundsFrom_BP (lo : Nat) (s : State) : (roundsFrom lo s).BP = s.BP := by rw [roundsFrom_frame lo s]
@[simp] theorem roundsFrom_TS (lo : Nat) (s : State) : (roundsFrom lo s).TS = s.TS := by rw [roundsFrom_frame lo s]
@[simp] theorem roundsFrom_TR (lo : Nat) (s : State) : (roundsFrom lo s).TR = s.TR := by rw [roundsFrom_frame lo s]
@[simp] theorem roundsFrom_ERR (lo : Nat) (s : State) : (roundsFrom lo s).ERR = s.ERR := by rw [roundsFrom_frame lo s]
@[simp] theorem roundsFrom_MSG (lo : Nat) (s : State) : (roundsFrom lo s).MSG = s.MSG := by rw [roundsFrom_frame lo s]
@[simp] theorem roundsFrom_PMB (lo : Nat) (s : State) : (roundsFrom lo s).PMB = s.PMB := by rw [roundsFrom_frame lo s]
@[simp] theorem roundsFrom_WSEQ (lo : Nat) (s : State) : (roundsFrom lo s).WSEQ = s.WSEQ := by rw [roundsFrom_frame lo s]
@[simp] theorem roundsFrom_pending (lo : Nat) (s : State) : (roundsFrom lo s).pending = s.pending := by rw [roundsFrom_frame lo s]
@[simp] theorem roundsFrom_response (lo : Nat) (s : State) : (roundsFrom lo s).response = s.response := by rw [roundsFrom_frame lo s]
@[simp] theorem roundsFrom_draws (lo : Nat) (s : State) : (roundsFrom lo s).draws = s.draws + (64 - lo) := by rw [roundsFrom_frame lo s]

/-! ### compressEffect -/

@[simp] theorem compressEffect_cfg (s : State) : (compressEffect s).cfg = s.cfg := by rw [compressEffect_frame s]
@[simp] theorem compressEffect_DIG (s : State) : (compressEffect s).DIG = s.DIG := by rw [compressEffect_frame s]
@[simp] theorem compressEffect_LEN (s : State) : (compressEffect s).LEN = s.LEN := by rw [compressEffect_frame s]
@[simp] theorem compressEffect_PLEN (s : State) : (compressEffect s).PLEN = s.PLEN := by rw [compressEffect_frame s]
@[simp] theorem compressEffect_WLEN (s : State) : (compressEffect s).WLEN = s.WLEN := by rw [compressEffect_frame s]
@[simp] theorem compressEffect_BP (s : State) : (compressEffect s).BP = BitVec.ofNat 64 (s.BP.toNat + 1) := by rw [compressEffect_frame s]
@[simp] theorem compressEffect_TS (s : State) : (compressEffect s).TS = 64 := by rw [compressEffect_frame s]
@[simp] theorem compressEffect_TR (s : State) : (compressEffect s).TR = 64 := by rw [compressEffect_frame s]
@[simp] theorem compressEffect_ERR (s : State) : (compressEffect s).ERR = s.ERR := by rw [compressEffect_frame s]
@[simp] theorem compressEffect_MSG (s : State) : (compressEffect s).MSG = s.MSG := by rw [compressEffect_frame s]
@[simp] theorem compressEffect_PMB (s : State) : (compressEffect s).PMB = s.PMB := by rw [compressEffect_frame s]
@[simp] theorem compressEffect_WSEQ (s : State) : (compressEffect s).WSEQ = s.WSEQ := by rw [compressEffect_frame s]
@[simp] theorem compressEffect_pending (s : State) : (compressEffect s).pending = s.pending := by rw [compressEffect_frame s]
@[simp] theorem compressEffect_response (s : State) : (compressEffect s).response = s.response := by rw [compressEffect_frame s]
@[simp] theorem compressEffect_draws (s : State) : (compressEffect s).draws = s.draws + 115 := by rw [compressEffect_frame s]

/-! ### compressBlocks -/

@[simp] theorem compressBlocks_cfg (n : Nat) (s : State) : (compressBlocks n s).cfg = s.cfg := by rw [compressBlocks_frame n s]
@[simp] theorem compressBlocks_DIG (n : Nat) (s : State) : (compressBlocks n s).DIG = s.DIG := by rw [compressBlocks_frame n s]
@[simp] theorem compressBlocks_LEN (n : Nat) (s : State) : (compressBlocks n s).LEN = s.LEN := by rw [compressBlocks_frame n s]
@[simp] theorem compressBlocks_PLEN (n : Nat) (s : State) : (compressBlocks n s).PLEN = s.PLEN := by rw [compressBlocks_frame n s]
@[simp] theorem compressBlocks_WLEN (n : Nat) (s : State) : (compressBlocks n s).WLEN = s.WLEN := by rw [compressBlocks_frame n s]
@[simp] theorem compressBlocks_ERR (n : Nat) (s : State) : (compressBlocks n s).ERR = s.ERR := by rw [compressBlocks_frame n s]
@[simp] theorem compressBlocks_MSG (n : Nat) (s : State) : (compressBlocks n s).MSG = s.MSG := by rw [compressBlocks_frame n s]
@[simp] theorem compressBlocks_PMB (n : Nat) (s : State) : (compressBlocks n s).PMB = s.PMB := by rw [compressBlocks_frame n s]
@[simp] theorem compressBlocks_WSEQ (n : Nat) (s : State) : (compressBlocks n s).WSEQ = s.WSEQ := by rw [compressBlocks_frame n s]
@[simp] theorem compressBlocks_pending (n : Nat) (s : State) : (compressBlocks n s).pending = s.pending := by rw [compressBlocks_frame n s]
@[simp] theorem compressBlocks_response (n : Nat) (s : State) : (compressBlocks n s).response = s.response := by rw [compressBlocks_frame n s]

/-! ### hashEffect -/

@[simp] theorem hashEffect_cfg (s : State) : (hashEffect s).cfg = s.cfg := by rw [hashEffect_frame s]
@[simp] theorem hashEffect_LEN (s : State) : (hashEffect s).LEN = s.LEN := by rw [hashEffect_frame s]
@[simp] theorem hashEffect_ERR (s : State) : (hashEffect s).ERR = s.ERR := by rw [hashEffect_frame s]
@[simp] theorem hashEffect_MSG (s : State) : (hashEffect s).MSG = s.MSG := by rw [hashEffect_frame s]
@[simp] theorem hashEffect_pending (s : State) : (hashEffect s).pending = s.pending := by rw [hashEffect_frame s]
@[simp] theorem hashEffect_response (s : State) : (hashEffect s).response = s.response := by rw [hashEffect_frame s]

end Sys2Proof.Machine
end

