-- ==== Sys2Proof/Laws/Compress.lean ====
section
/-! SUPPORT. What the composed commands COMPRESS and HASH compute: the schedule, the working state and the hash state they
leave, said through the functions `schedule`, `roundsOn`, `compress` and `foldBlocks`. Cite these and do not unfold
`compressEffect`, `scheduleFrom` or `roundsFrom`: their counted loops run over literal ranges, which unfolding expands. -/

namespace Sys2Proof.Machine

/-! ### Contents and reads -/

theorem content_getD {w n : Nat} {f : RegFile w n} {i : Nat} (d : BitVec w)
    (h : (RegFile.content f i).isSome = true) : RegFile.content f i = some ((RegFile.content f i).getD d) := by
  cases hc : RegFile.content f i with
  | none => rw [hc] at h; cases h
  | some v => rfl

theorem Memory.content_getD {w : Nat} {m : Memory w} {i : Nat} (d : BitVec w)
    (h : (Memory.content m i).isSome = true) : Memory.content m i = some ((Memory.content m i).getD d) := by
  cases hc : Memory.content m i with
  | none => rw [hc] at h; cases h
  | some v => rfl

theorem content_H_of_isSome {s : State} {i : Nat} (h : (RegFile.content s.H i).isSome = true) :
    RegFile.content s.H i = some (s.readH i) := content_getD _ h

theorem content_V_of_isSome {s : State} {i : Nat} (h : (RegFile.content s.V i).isSome = true) :
    RegFile.content s.V i = some (s.readV i) := content_getD _ h

theorem content_W_of_isSome {s : State} {i : Nat} (h : (RegFile.content s.W i).isSome = true) :
    RegFile.content s.W i = some (s.readW i) := content_getD _ h

theorem content_MSG_of_isSome {s : State} {i : Nat} (h : (Memory.content s.MSG i).isSome = true) :
    Memory.content s.MSG i = some (s.readMsg i) := Memory.content_getD _ h

theorem content_PMB_of_isSome {s : State} {i : Nat} (h : (Memory.content s.PMB i).isSome = true) :
    Memory.content s.PMB i = some (s.readPmb i) := Memory.content_getD _ h

theorem getElem?_eq_getD {w : Nat} (l : List (BitVec w)) (i : Nat) (h : i < l.length) : l[i]? = some (l.getD i 0) := by
  rw [List.getD_eq_getElem?_getD, List.getElem?_eq_getElem h]; rfl

/-- H holds the words `ws`. -/
def HoldsHash (s : State) (ws : List Word) : Prop := ∀ i, i < 8 → RegFile.content s.H i = ws[i]?

/-- Where V is written, it holds its own working state. -/
theorem holdsWorking_working {s : State} (h : ∀ i, i < 8 → (RegFile.content s.V i).isSome = true) :
    HoldsWorking s s.working := by
  intro i hi
  rw [content_V_of_isSome (h i hi)]
  interval_cases i <;> rfl

/-! ### The counters and the response do not matter to the loops -/

theorem foldl_scheduleStep_with (l : List Nat) (ts tr : BitVec 7) (r : Option Response) : ∀ s : State,
    l.foldl scheduleStep { s with TS := ts, TR := tr, response := r } =
      { l.foldl scheduleStep s with TS := ts, TR := tr, response := r } := by
  induction l with
  | nil => intro s; rfl
  | cons t l ih => intro s; exact ih (scheduleStep s t)

theorem foldl_roundStep_with (l : List Nat) (ts tr : BitVec 7) (r : Option Response) : ∀ s : State,
    l.foldl roundStep { s with TS := ts, TR := tr, response := r } =
      { l.foldl roundStep s with TS := ts, TR := tr, response := r } := by
  induction l with
  | nil => intro s; rfl
  | cons t l ih => intro s; exact ih (roundStep s t)

/-- EXPAND's loop on a state whose counters and response are replaced. -/
theorem scheduleFrom_with (lo : Nat) (s : State) (ts tr : BitVec 7) (r : Option Response) :
    scheduleFrom lo { s with TS := ts, TR := tr, response := r } =
      { scheduleFrom lo s with TS := ts, TR := tr, response := r } :=
  foldl_scheduleStep_with _ ts tr r s

/-- ROUNDS' loop on a state whose counters and response are replaced. -/
theorem roundsFrom_with (lo : Nat) (s : State) (ts tr : BitVec 7) (r : Option Response) :
    roundsFrom lo { s with TS := ts, TR := tr, response := r } =
      { roundsFrom lo s with TS := ts, TR := tr, response := r } :=
  foldl_roundStep_with _ ts tr r s

/-- One turn of EXPAND's loop. -/
theorem scheduleFrom_succ (lo : Nat) (s : State) (h : lo < 64) :
    scheduleFrom lo s = scheduleFrom (lo + 1) (scheduleStep s lo) := by
  unfold scheduleFrom
  rw [show 64 - lo = (64 - (lo + 1)) + 1 by omega, List.range'_succ, List.foldl_cons]

/-- One turn of ROUNDS' loop. -/
theorem roundsFrom_succ (lo : Nat) (s : State) (h : lo < 64) :
    roundsFrom lo s = roundsFrom (lo + 1) (roundStep s lo) := by
  unfold roundsFrom
  rw [show 64 - lo = (64 - (lo + 1)) + 1 by omega, List.range'_succ, List.foldl_cons]

theorem scheduleFrom_64 (s : State) : scheduleFrom 64 s = s := rfl

theorem roundsFrom_64 (s : State) : roundsFrom 64 s = s := rfl

/-! ### COMPRESS (43_compressor.md rule R151) -/

theorem blockOutOfRange_iff (s : State) :
    s.blockOutOfRange = true ↔ (s.WLEN.toNat > wseqCap s.cfg ∨ 16 * s.BP.toNat + 16 > s.WLEN.toNat) := by
  simp [State.blockOutOfRange]

/-- After LOADBLK and EXPAND, W holds the schedule of the block. -/
theorem scheduleFrom_takeBlock (s : State) : HoldsSchedule (scheduleFrom 16 (takeBlock s)) (schedule s.block) := by
  have h1 : HoldsSchedule (takeBlock s) s.block := by
    intro j hj
    rw [block_length] at hj
    rw [takeBlock_W, if_pos hj, block_getElem? s j hj]
  have h2 := h1.loop 48 (by simp) (by simp)
  rw [block_length] at h2
  rw [scheduleFrom, schedule, show 64 - 16 = 48 from rfl]
  exact h2

/-- COMPRESS but for its counters, over the state its rounds leave. -/
theorem compressEffect_eq (s x : State) (h : roundsFrom 0 (loadWorking (scheduleFrom 16 (takeBlock s))) = x) :
    (compressEffect s).H = (addBack x).H ∧ (compressEffect s).V = x.V ∧ (compressEffect s).W = x.W := by
  unfold compressEffect
  rw [h]
  exact ⟨rfl, rfl, rfl⟩

theorem compressEffect_W_eq (s : State) : (compressEffect s).W = (scheduleFrom 16 (takeBlock s)).W := by
  rw [(compressEffect_eq s _ rfl).2.2, roundsFrom_W, loadWorking_W]

theorem compressEffect_V_eq (s : State) :
    (compressEffect s).V = (roundsFrom 0 (loadWorking (scheduleFrom 16 (takeBlock s)))).V :=
  (compressEffect_eq s _ rfl).2.1

theorem compressEffect_H_eq (s : State) :
    (compressEffect s).H = (addBack (roundsFrom 0 (loadWorking (scheduleFrom 16 (takeBlock s))))).H :=
  (compressEffect_eq s _ rfl).1

/-- COMPRESS leaves the schedule of the block in W. -/
theorem compressEffect_W (s : State) (i : Nat) : RegFile.content (compressEffect s).W i = (schedule s.block)[i]? := by
  by_cases hi : i < 64
  · rw [compressEffect_W_eq]
    exact scheduleFrom_takeBlock s i (by rw [schedule_length, block_length]; exact hi)
  · rw [RegFile.content_of_le _ _ (by omega), List.getElem?_eq_none (by simp; omega)]

/-- COMPRESS leaves the final working state in V, where H is written. -/
theorem compressEffect_V (s : State) (hh : ∀ i, i < 8 → (RegFile.content s.H i).isSome = true) (i : Nat) (hi : i < 8) :
    RegFile.content (compressEffect s).V i =
      (roundsOn (schedule s.block) (Work.ofList s.running) 64).toList[i]? := by
  have h3 : HoldsSchedule (loadWorking (scheduleFrom 16 (takeBlock s))) (schedule s.block) := by
    intro j hj
    rw [loadWorking_W]
    exact scheduleFrom_takeBlock s j hj
  have h4 : HoldsWorking (loadWorking (scheduleFrom 16 (takeBlock s))) (Work.ofList s.running) := by
    intro j hj
    have e := content_H_of_isSome (hh j hj)
    rw [loadWorking_V _ _ hj, readH_of (s := scheduleFrom 16 (takeBlock s)) (v := s.readH j) (by simpa using e)]
    interval_cases j <;> rfl
  have h5 := h4.loop 64 0 h3 (by simp)
  rw [← roundsOn_eq] at h5
  rw [compressEffect_V_eq, roundsFrom, Nat.sub_zero]
  exact h5 i hi

/-- ADDBACK on a hash state `ws` and a working state `v`. -/
theorem addBack_of {x : State} {v : Work} {ws : List Word} (hH : HoldsHash x ws) (hV : HoldsWorking x v)
    (hl : ws.length = 8) (i : Nat) (hi : i < 8) :
    RegFile.content (addBack x).H i = (List.zipWith add32 ws v.toList)[i]? := by
  have h1 := hH i hi
  have h2 := hV i hi
  rw [getElem?_eq_getD ws i (by omega)] at h1
  rw [getElem?_eq_getD v.toList i (by rw [Work.toList_length]; exact hi)] at h2
  rw [addBack_H _ _ hi, readH_of h1, readV_of h2, List.getElem?_zipWith, getElem?_eq_getD ws i (by omega),
    getElem?_eq_getD v.toList i (by rw [Work.toList_length]; exact hi)]

/-- COMPRESS updates H by the Compressor, where H is written. -/
theorem compressEffect_H (s : State) (hh : ∀ i, i < 8 → (RegFile.content s.H i).isSome = true) (i : Nat) (hi : i < 8) :
    RegFile.content (compressEffect s).H i = (compress s.running s.block)[i]? := by
  have hV := compressEffect_V s hh
  rw [compressEffect_V_eq] at hV
  have hH : HoldsHash (roundsFrom 0 (loadWorking (scheduleFrom 16 (takeBlock s)))) s.running := by
    intro j hj
    rw [roundsFrom_H, loadWorking_H, scheduleFrom_H, takeBlock_H, running_getElem? s j hj]
    exact content_H_of_isSome (hh j hj)
  rw [compressEffect_H_eq]
  unfold compress
  exact addBack_of hH hV (running_length s) i hi

/-! ### The block loop of HASH (44_sequencer_finalizer.md rule R174) -/

theorem HoldsHash.running {s : State} {ws : List Word} (h : HoldsHash s ws) (hl : ws.length = 8) :
    s.running = ws := by
  apply List.ext_getElem?
  intro i
  by_cases hi : i < 8
  · have hs := h i hi
    rw [getElem?_eq_getD ws i (by omega)] at hs ⊢
    rw [running_getElem? s i hi, readH_of hs]
  · rw [List.getElem?_eq_none (by simp; omega), List.getElem?_eq_none (by omega)]

/-- The counters after the block loop are as before it or 64. -/
theorem compressBlocks_counters (n : Nat) : ∀ s : State,
    ((compressBlocks n s).TS = 64 ∨ (compressBlocks n s).TS = s.TS) ∧
    ((compressBlocks n s).TR = 64 ∨ (compressBlocks n s).TR = s.TR) := by
  induction n with
  | zero => intro s; exact ⟨.inr rfl, .inr rfl⟩
  | succ n ih =>
    intro s
    unfold compressBlocks
    split
    · have := ih (compressEffect s)
      simp only [compressEffect_TS, compressEffect_TR, or_self] at this
      exact ⟨.inl this.1, .inl this.2⟩
    · exact ⟨.inr rfl, .inr rfl⟩

theorem hashEffect_counters (s : State) :
    ((hashEffect s).TS = 64 ∨ (hashEffect s).TS = s.TS) ∧ ((hashEffect s).TR = 64 ∨ (hashEffect s).TR = s.TR) := by
  have := compressBlocks_counters ((toWordsEffect (padEffect (initEffect s))).WLEN.toNat / 16)
    (toWordsEffect (padEffect (initEffect s)))
  unfold hashEffect
  simpa using this

/-- W and V hold the schedule and the final working state of block `k` of `words`. -/
def HoldsLastBlock (s : State) (words : List Word) (k : Nat) : Prop :=
  (∀ i, i < 64 → RegFile.content s.W i = (schedule (blockOf words k))[i]?) ∧
  (∀ i, i < 8 → RegFile.content s.V i =
    (roundsOn (schedule (blockOf words k)) (Work.ofList (foldBlocks words k)) 64).toList[i]?)

/-- Where block `k` is the block at BP, it is what COMPRESS takes. -/
theorem block_eq_blockOf {words : List Word} {s : State} {k : Nat} (hb : s.BP.toNat = k)
    (hk : 16 * k + 16 ≤ words.length) (hws : ∀ i, i < words.length → Memory.content s.WSEQ i = words[i]?) :
    s.block = blockOf words k := by
  apply List.ext_getElem?
  intro i
  by_cases hi : i < 16
  · have := hws (16 * k + i) (by omega)
    rw [getElem?_eq_getD _ _ (by omega)] at this
    rw [block_getElem? s i hi, hb, readWseq_of this, ← getElem?_eq_getD _ _ (by omega), blockOf,
      List.getElem?_take, List.getElem?_drop, if_pos hi]
  · rw [List.getElem?_eq_none (by simp; omega), List.getElem?_eq_none (by simp [blockOf]; omega)]

/-- COMPRESS takes the running state of block `k` to that of block `k + 1`. -/
theorem compressEffect_fold {words : List Word} {s : State} {k : Nat} (h : HoldsHash s (foldBlocks words k))
    (hblk : s.block = blockOf words k) :
    HoldsHash (compressEffect s) (foldBlocks words (k + 1)) ∧ HoldsLastBlock (compressEffect s) words k := by
  have hr := h.running (foldBlocks_length _ _)
  have hsome : ∀ i, i < 8 → (RegFile.content s.H i).isSome = true := by
    intro i hi
    rw [h i hi, getElem?_eq_getD _ _ (by rw [foldBlocks_length]; omega)]; rfl
  refine ⟨?_, ?_, ?_⟩
  · intro i hi
    rw [compressEffect_H s hsome i hi, hr, hblk]; rfl
  · intro i _
    rw [compressEffect_W, hblk]
  · intro i hi
    rw [compressEffect_V s hsome i hi, hr, hblk]

/-- The block loop computes `foldBlocks`: from block `k`, with `n` blocks left. -/
theorem compressBlocks_fold (words : List Word) (n : Nat) : ∀ (s : State) (k : Nat),
    HoldsHash s (foldBlocks words k) → s.BP.toNat = k → s.WLEN.toNat = words.length →
    words.length = 16 * (k + n) → (∀ i, i < words.length → Memory.content s.WSEQ i = words[i]?) →
    HoldsHash (compressBlocks n s) (foldBlocks words (k + n)) ∧ (compressBlocks n s).BP.toNat = k + n ∧
      (n ≠ 0 → (compressBlocks n s).TS = 64 ∧ (compressBlocks n s).TR = 64 ∧
        HoldsLastBlock (compressBlocks n s) words (k + n - 1)) := by
  induction n with
  | zero => intro s k h hb _ _ _; exact ⟨h, hb, fun h => absurd rfl h⟩
  | succ n ih =>
    intro s k h hb hwl hlen hws
    unfold compressBlocks
    rw [if_pos (by omega)]
    obtain ⟨hH, hL⟩ := compressEffect_fold h (block_eq_blockOf hb (by omega) hws)
    have hlt := s.WLEN.isLt
    have hbp : (compressEffect s).BP.toNat = k + 1 := by
      rw [compressEffect_BP, BitVec.toNat_ofNat, hb]; omega
    have := ih (compressEffect s) (k + 1) hH hbp (by simpa using hwl) (by omega) (by simpa using hws)
    rw [show k + 1 + n = k + (n + 1) by omega] at this
    refine ⟨this.1, this.2.1, fun _ => ?_⟩
    cases n with
    | zero => exact ⟨rfl, rfl, hL⟩
    | succ n => exact this.2.2 (by omega)

end Sys2Proof.Machine
end

