-- ==== Sys2Proof/Laws/Exec.lean ====
section
/-! SUPPORT. What a command can do, said once: it raises one error, under its own condition, or it has its effect and
responds OK. -/

namespace Sys2Proof.Machine

/-- The error a command raises in a state, if any: its checks in the order of its pseudocode. -/
def errorOf (i : Instr) (s : State) : Option Cause :=
  match i with
  | .init => none
  | .pad => if s.LEN.toNat > s.cfg.msgCap then some .capacityError else none
  | .towords =>
    if s.PLEN.toNat > pmbCap s.cfg then some .capacityError
    else if s.PLEN.toNat % 4 ≠ 0 then some .invalidLength else none
  | .tobytes => if s.WLEN.toNat > wseqCap s.cfg then some .capacityError else none
  | .loadblk => if s.blockOutOfRange then some .blockRangeError else none
  | .sched => if s.TS = 64 then some .sequenceError else none
  | .expand => none
  | .loadv => none
  | .round => if s.TR = 64 ∨ s.TR.toNat ≥ s.TS.toNat then some .sequenceError else none
  | .rounds => if s.TS ≠ 64 then some .sequenceError else none
  | .addback => if s.TR ≠ 64 then some .sequenceError else none
  | .compress => if s.blockOutOfRange then some .blockRangeError else none
  | .digest => none
  | .hash => if s.LEN.toNat > s.cfg.msgCap then some .capacityError else none

/-- The state a command leaves, but for the response, when it raises no error. -/
def effectOf (i : Instr) (s : State) : State :=
  match i with
  | .init => initEffect s
  | .pad => padEffect s
  | .towords => toWordsEffect s
  | .tobytes => toBytesEffect s
  | .loadblk => { takeBlock s with TS := 16 }
  | .sched => { scheduleStep s s.TS.toNat with TS := BitVec.ofNat 7 (s.TS.toNat + 1) }
  | .expand => { scheduleFrom s.TS.toNat s with TS := 64 }
  | .loadv => { loadWorking s with TR := 0 }
  | .round => { roundStep s s.TR.toNat with TR := BitVec.ofNat 7 (s.TR.toNat + 1) }
  | .rounds => { roundsFrom s.TR.toNat s with TR := 64 }
  | .addback => addBack s
  | .compress => compressEffect s
  | .digest => digestEffect s
  | .hash => hashEffect s

/-- A command raises its error, recording its own opcode, or has its effect and responds OK. -/
theorem exec_eq (i : Instr) (s : State) :
    exec i s = (match errorOf i s with
      | some c => raise c (opcode i) s
      | none => respondOk (effectOf i s)) := by
  cases i with
  | init => rfl
  | pad => simp only [exec, execPad, errorOf, effectOf, opcode]; split <;> rfl
  | towords => simp only [exec, execToWords, errorOf, effectOf, opcode]; split <;> [rfl; split <;> rfl]
  | tobytes => simp only [exec, execToBytes, errorOf, effectOf, opcode]; split <;> rfl
  | loadblk => simp only [exec, execLoadBlk, errorOf, effectOf, opcode]; split <;> rfl
  | sched => simp only [exec, execSched, errorOf, effectOf, opcode]; split <;> rfl
  | expand => rfl
  | loadv => rfl
  | round => simp only [exec, execRound, errorOf, effectOf, opcode]; split <;> rfl
  | rounds => simp only [exec, execRounds, errorOf, effectOf, opcode]; split <;> rfl
  | addback => simp only [exec, execAddBack, errorOf, effectOf, opcode]; split <;> rfl
  | compress => simp only [exec, execCompress, errorOf, effectOf, opcode]; split <;> rfl
  | digest => rfl
  | hash => simp only [exec, execHash, errorOf, effectOf, opcode]; split <;> rfl

theorem raise_eq (c : Cause) (op : Byte) (s : State) :
    raise c op s = .next { s with ERR := recordError s.ERR c op, response := some (.err c) } := rfl

theorem respondOk_eq (s : State) : respondOk s = .next { s with response := some .ok } := rfl

/-! ### The error record -/

theorem recordError_zero (c : Cause) (op : Byte) : recordError 0 c op = errWord c op := rfl

theorem recordError_of_ne {e : Word} (h : e ≠ 0) (c : Cause) (op : Byte) : recordError e c op = e := if_neg h

theorem errWord_cause (c : Cause) (op : Byte) : errCause (errWord c op) = c.code := by
  apply BitVec.eq_of_getLsbD_eq
  intro j hj
  simp only [errCause, errWord, BitVec.getLsbD_extractLsb', BitVec.getLsbD_or, BitVec.getLsbD_shiftLeft,
    BitVec.getLsbD_setWidth]
  simp [hj]
  intros
  omega

theorem errWord_op (c : Cause) (op : Byte) : errOp (errWord c op) = op := by
  apply BitVec.eq_of_getLsbD_eq
  intro j hj
  simp only [errOp, errWord, BitVec.getLsbD_extractLsb', BitVec.getLsbD_or, BitVec.getLsbD_shiftLeft,
    BitVec.getLsbD_setWidth]
  simp [hj, show 8 + j < 32 by omega, show j < 32 by omega]

theorem errWord_reserved (c : Cause) (op : Byte) : errReserved (errWord c op) = 0 := by
  apply BitVec.eq_of_getLsbD_eq
  intro j hj
  have h1 : op.getLsbD (16 + j - 8) = false := BitVec.getLsbD_of_ge _ _ (by omega)
  have h2 : c.code.getLsbD (16 + j) = false := BitVec.getLsbD_of_ge _ _ (by omega)
  simp only [errReserved, errWord, BitVec.getLsbD_extractLsb', BitVec.getLsbD_or, BitVec.getLsbD_shiftLeft,
    BitVec.getLsbD_setWidth]
  simp [show ¬ 16 + j < 8 by omega, h1, h2]

/-! ### What a command can do -/

/-- What no effect of a command touches (10_state.md rule R44). -/
theorem effectOf_keep (i : Instr) (s : State) :
    (effectOf i s).cfg = s.cfg ∧ (effectOf i s).LEN = s.LEN ∧ (effectOf i s).ERR = s.ERR ∧
    (effectOf i s).MSG = s.MSG ∧ (effectOf i s).pending = s.pending := by
  cases i <;> simp [effectOf]

/-- The two shapes of a command's next state. -/
theorem exec_cases {i : Instr} {s t : State} (h : exec i s = .next t) :
    (∃ c, errorOf i s = some c ∧
      t = { s with ERR := recordError s.ERR c (opcode i), response := some (.err c) }) ∨
    (errorOf i s = none ∧ t = { effectOf i s with response := some .ok }) := by
  rw [exec_eq] at h
  cases he : errorOf i s with
  | some c =>
    rw [he] at h
    exact .inl ⟨c, rfl, by simpa [raise_eq] using h.symm⟩
  | none =>
    rw [he] at h
    exact .inr ⟨rfl, by simpa [respondOk_eq] using h.symm⟩

/-- Every command answers a next state. -/
theorem exec_isNext (i : Instr) (s : State) : ∃ t, exec i s = .next t := by
  rw [exec_eq]
  cases errorOf i s with
  | some c => exact ⟨_, rfl⟩
  | none => exact ⟨_, rfl⟩

end Sys2Proof.Machine
end

