-- ==== Sys2Proof/Laws/PerInstr.lean ====
section
/-! SUPPORT. Statements about every command as syntax, proved one lemma per constructor. -/

namespace Sys2Proof.Laws.FormatC

/-- The command word of `i` is in format C with a zero `zero` field and the opcode of `i` in `op` (30_encoding.md rule R90),
the opcode is one of 0x01 to 0x0E, and the opcode map reads it back as `i` (rule R91). -/
def Statement (i : Instr) : Prop :=
  zeroField (encode i) = 0 ∧ opField (encode i) = opcode i ∧ 0x01 ≤ (opcode i).toNat ∧ (opcode i).toNat ≤ 0x0E ∧
    commandOf (opcode i).toNat = some i

theorem init : Statement .init := by unfold Statement; decide

theorem pad : Statement .pad := by unfold Statement; decide

theorem towords : Statement .towords := by unfold Statement; decide

theorem tobytes : Statement .tobytes := by unfold Statement; decide

theorem loadblk : Statement .loadblk := by unfold Statement; decide

theorem sched : Statement .sched := by unfold Statement; decide

theorem expand : Statement .expand := by unfold Statement; decide

theorem loadv : Statement .loadv := by unfold Statement; decide

theorem round : Statement .round := by unfold Statement; decide

theorem rounds : Statement .rounds := by unfold Statement; decide

theorem addback : Statement .addback := by unfold Statement; decide

theorem compress : Statement .compress := by unfold Statement; decide

theorem digest : Statement .digest := by unfold Statement; decide

theorem hash : Statement .hash := by unfold Statement; decide

end Sys2Proof.Laws.FormatC
end

