-- ==== Sys2Proof/Laws/Step.lean ====
section
/-! SUPPORT. What one host transaction and one step can do, said once: the cases the provers split a step into. -/

namespace Sys2Proof.Machine

/-- What the reads' and writes' shared checks admit: the space the number names, an offset inside it, its cell width. -/
theorem admitted_eq_some {c : Config} {space off width : Nat} {sp : Space} :
    admitted c space off width = some sp ↔
      spaceOf space = some sp ∧ off < cellCount c sp ∧ width = cellWidth sp := by
  unfold admitted
  cases h : spaceOf space with
  | none => simp
  | some sp' =>
    simp only [Option.some.injEq]
    constructor
    · intro h'
      split at h'
      · cases h'
      · split at h'
        · cases h'
        · rename_i h1 h2
          cases h'
          exact ⟨rfl, by omega, by simpa using h2⟩
    · rintro ⟨rfl, h1, h2⟩
      rw [if_neg (by omega), if_neg (by simpa using h2)]

theorem spaceOf_lt {space : Nat} {sp : Space} (h : spaceOf space = some sp) : space < 8 := by
  unfold spaceOf at h
  split at h <;> first | omega | cases h

/-- The command port (10_state.md rule R32). -/
theorem command_eq (c : Word) (s : State) :
    command c s = (match decode c with
      | .ok i => exec i s
      | .error (.illegalCommand op) => raise .illegalCommand op s) := rfl

/-- The host's 32-bit write to CSR offset 0 hands its whole word to the command port (20_memory.md rule R63). -/
theorem transact_cmd (c : Word) (s : State) : transact (cmdWrite c) s = command c s := by
  simp [cmdWrite, transact, busWrite, admitted, spaceOf, cellCount, cellWidth, cellWritable]

/-- What a value written to CMD does: a command, or IllegalCommand. -/
theorem command_cases (c : Word) (s : State) :
    (∃ i, decode c = .ok i ∧ command c s = exec i s) ∨
    (∃ op, decode c = .error (.illegalCommand op) ∧ command c s = raise .illegalCommand op s) := by
  unfold command
  cases h : decode c with
  | ok i => exact .inl ⟨i, rfl, rfl⟩
  | error e => cases e with | illegalCommand op => exact .inr ⟨op, rfl, rfl⟩

/-- Everything a read transaction can do. -/
theorem busRead_cases (space off width : Nat) (s : State) :
    (admitted s.cfg space off width = none ∧ busRead space off width s = raise .busError 0 s) ∨
    (∃ sp, admitted s.cfg space off width = some sp ∧
      busRead space off width s =
        .next { s with response := some (cellRead s sp off), draws := s.draws + 1 }) := by
  unfold busRead
  cases h : admitted s.cfg space off width with
  | none => exact .inl ⟨rfl, rfl⟩
  | some sp => exact .inr ⟨sp, rfl, rfl⟩

/-- Everything a write transaction can do. -/
theorem busWrite_cases (space off width data : Nat) (s : State) :
    ((admitted s.cfg space off width = none ∨
        ∃ sp, admitted s.cfg space off width = some sp ∧ cellWritable sp off = false) ∧
      busWrite space off width data s = raise .busError 0 s) ∨
    (admitted s.cfg space off width = some .csr ∧ off = 0 ∧
      busWrite space off width data s = command (BitVec.ofNat 32 data) s) ∨
    (∃ sp, admitted s.cfg space off width = some sp ∧ cellWritable sp off = true ∧ ¬ (sp = .csr ∧ off = 0) ∧
      busWrite space off width data s = .next { cellWrite s sp off data with response := some .ok }) := by
  unfold busWrite
  cases h : admitted s.cfg space off width with
  | none => exact .inl ⟨.inl rfl, rfl⟩
  | some sp =>
    simp only
    cases hw : cellWritable sp off with
    | false => exact .inl ⟨.inr ⟨sp, rfl, hw⟩, by simp⟩
    | true =>
      by_cases hc : sp = .csr ∧ off = 0
      · refine .inr (.inl ⟨by rw [hc.1], hc.2, ?_⟩)
        simp [hc]
      · refine .inr (.inr ⟨sp, rfl, hw, hc, ?_⟩)
        simp [hc, respondOk, State.respond]

/-- What a host write of a cell other than CMD leaves alone, and when it changes ERR (20_memory.md rule R63). -/
theorem cellWrite_keep (s : State) (sp : Space) (off d : Nat) :
    (cellWrite s sp off d).cfg = s.cfg ∧ (cellWrite s sp off d).pending = s.pending ∧
    (cellWrite s sp off d).TS = s.TS ∧ (cellWrite s sp off d).TR = s.TR ∧
    (cellWrite s sp off d).V = s.V ∧ (cellWrite s sp off d).W = s.W ∧
    (cellWrite s sp off d).DIG = s.DIG ∧ (cellWrite s sp off d).draws = s.draws ∧
    ((cellWrite s sp off d).ERR = s.ERR ∨ (sp = .csr ∧ off = 1 ∧ (cellWrite s sp off d).ERR = 0)) := by
  cases sp <;> try simp [cellWrite]
  unfold csrWrite
  split <;> simp

/-- Everything a host transaction can do: BusError, a read, a command port write, or a write of one cell. -/
theorem transact_cases {tx : Txn} {s t : State} (h : transact tx s = .next t) :
    (∃ c op, t = { s with ERR := recordError s.ERR c op, response := some (.err c) } ∧
      (c = .busError ∧ op = 0 ∨ c = .illegalCommand)) ∨
    (∃ r, t = { s with response := some r, draws := s.draws + 1 } ∧ ∀ c, r ≠ .err c) ∨
    (∃ i, exec i s = .next t) ∨
    (∃ sp space off width data, tx = .write space off width data ∧ admitted s.cfg space off width = some sp ∧
      cellWritable sp off = true ∧ ¬ (sp = .csr ∧ off = 0) ∧
      t = { cellWrite s sp off data with response := some .ok }) := by
  cases tx with
  | read space off width =>
    rw [transact] at h
    rcases busRead_cases space off width s with ⟨_, h'⟩ | ⟨sp, _, h'⟩ <;> rw [h'] at h
    · exact .inl ⟨.busError, 0, by simpa [raise_eq] using h.symm, .inl ⟨rfl, rfl⟩⟩
    · refine .inr (.inl ⟨cellRead s sp off, by simpa using h.symm, ?_⟩)
      intro c; cases sp <;> simp [cellRead]
  | write space off width data =>
    rw [transact] at h
    rcases busWrite_cases space off width data s with ⟨_, h'⟩ | ⟨_, _, h'⟩ | ⟨sp, h1, h2, h3, h'⟩ <;> rw [h'] at h
    · exact .inl ⟨.busError, 0, by simpa [raise_eq] using h.symm, .inl ⟨rfl, rfl⟩⟩
    · rcases command_cases (BitVec.ofNat 32 data) s with ⟨i, _, hc⟩ | ⟨op, _, hc⟩ <;> rw [hc] at h
      · exact .inr (.inr (.inl ⟨i, h⟩))
      · exact .inl ⟨.illegalCommand, op, by simpa [raise_eq] using h.symm, .inr rfl⟩
    · exact .inr (.inr (.inr ⟨sp, space, off, width, data, rfl, h1, h2, h3, by simpa using h.symm⟩))

/-- Everything a step can do: stay idle, take the reset event, or perform one transaction. -/
theorem step_cases {s t : State} (h : step s = .next t) :
    (s.pending = [] ∧ t = s) ∨
    (∃ rest, s.pending = .reset :: rest ∧ t = takeReset { s with pending := rest }) ∨
    (∃ tx rest, s.pending = .txn tx :: rest ∧ tx.wellFormed = true ∧
      transact tx { s with pending := rest } = .next t) := by
  unfold step at h
  cases hp : s.pending with
  | nil => rw [hp] at h; exact .inl ⟨rfl, by simpa using h.symm⟩
  | cons e rest =>
    rw [hp] at h
    simp only [hostEvent] at h
    cases e with
    | reset => exact .inr (.inl ⟨rest, rfl, by simpa [HostEvent.wellFormed] using h.symm⟩)
    | txn tx =>
      cases hw : tx.wellFormed with
      | false => simp [HostEvent.wellFormed, hw] at h
      | true =>
        simp only [HostEvent.wellFormed, hw] at h
        exact .inr (.inr ⟨tx, rest, rfl, hw, by simpa using h⟩)

/-- Every transaction answers a next state. -/
theorem transact_isNext (tx : Txn) (s : State) : ∃ t, transact tx s = .next t := by
  cases tx with
  | read space off width =>
    rcases busRead_cases space off width s with ⟨_, h⟩ | ⟨sp, _, h⟩ <;> exact ⟨_, h⟩
  | write space off width data =>
    rcases busWrite_cases space off width data s with ⟨_, h⟩ | ⟨_, _, h⟩ | ⟨sp, _, _, _, h⟩
    · exact ⟨_, h⟩
    · rcases command_cases (BitVec.ofNat 32 data) s with ⟨i, _, hc⟩ | ⟨op, _, hc⟩
      · obtain ⟨t, ht⟩ := exec_isNext i s
        exact ⟨t, h.trans (hc.trans ht)⟩
      · exact ⟨_, h.trans hc⟩
    · exact ⟨_, h⟩

end Sys2Proof.Machine
end

