-- ==== Sys2Proof/Tests/Slice0.lean ====
section
/-! SUPPORT. Tests of one step or one function each. Every expected value is taken from the spec: 95_test_vectors.md, by
section and row, unless a comment names another rule. At the end, a witness for every obligation that has hypotheses. -/

open Sys2Proof Sys2Proof.Machine Sys2Proof.Claims

namespace Sys2Proof.Tests

/-! ### Helpers -/

/-- The next state satisfies `p`. -/
def after (o : Host.Outcome State Fault Refusal) (p : State → Bool) : Bool :=
  match o with
  | .next t => p t
  | .fault _ => false
  | .refused _ => false

/-- The step is refused because the record is none. -/
def notARecord (o : Host.Outcome State Fault Refusal) : Bool :=
  match o with
  | .refused .notATransaction => true
  | _ => false

/-- A register file whose first registers have been written with `vs`. -/
def file {w : Nat} (n : Nat) (vs : List (BitVec w)) : RegFile w n :=
  RegFile.writeMany (Vector.replicate n Reg.unwritten) 0 vs

/-- A memory whose first cells have been written with `vs`. -/
def cells {w : Nat} (vs : List (BitVec w)) : Memory w := Memory.writeMany [] 0 vs

/-- The state after reset with `e` pending. -/
def waiting (e : HostEvent) : State := { State.reset with pending := [e] }

/-- One host transaction on a state. -/
def does (s : State) (t : Txn) : Host.Outcome State Fault Refusal := step { s with pending := [.txn t] }

def hInit : List Word :=
  [0x6a09e667, 0xbb67ae85, 0x3c6ef372, 0xa54ff53a, 0x510e527f, 0x9b05688c, 0x1f83d9ab, 0x5be0cd19]

def sAbc : State := { State.reset with MSG := cells [0x61, 0x62, 0x63], LEN := 3 }

def abc0 : List Word :=
  [0x61626380, 0x00000000, 0x00000000, 0x00000000, 0x00000000, 0x00000000, 0x00000000, 0x00000000,
   0x00000000, 0x00000000, 0x00000000, 0x00000000, 0x00000000, 0x00000000, 0x00000000, 0x00000018]

def abc1 : List Word :=
  [0x61626380, 0x000f0000, 0x7da86405, 0x600003c6, 0x3e9d7b78, 0x0183fc00, 0x12dcbfdb, 0xe2e2c38e,
   0xc8215c1a, 0xb73679a2, 0xe5bc3909, 0x32663c5b, 0x9d209d67, 0xec8726cb, 0x702138a4, 0xd3b7973b]

def abc2 : List Word :=
  [0x93f5997f, 0x3b68ba73, 0xaff4ffc1, 0xf10a5c62, 0x0a8b3996, 0x72af830a, 0x9409e33e, 0x24641522,
   0x9f47bf94, 0xf0a64f5a, 0x3e246a79, 0x27333ba3, 0x0c4763f2, 0x840abf27, 0x7a290d5d, 0x065c43da]

def abc3 : List Word :=
  [0xfb3e89cb, 0xcc7617db, 0xb9e66c34, 0xa9993667, 0x84badedd, 0xc21462bc, 0x1487472c, 0xb20f7a99,
   0xef57b9cd, 0xebe6b238, 0x9fe3095e, 0x78bc8d4b, 0xa43fcf15, 0x668b2ff8, 0xeeaba2cc, 0x12b1edeb]

/-- Section 3.2: the schedule of the block of "abc". -/
def abcSchedule : List Word := abc0 ++ abc1 ++ abc2 ++ abc3

/-- Section 3.3, last row: the working state after the 64 rounds. -/
def abcWorking : List Word :=
  [0x506e3058, 0xd39a2165, 0x04d24d6c, 0xb85e2ce9, 0x5ef50f24, 0xfb121210, 0x948d25b6, 0x961f4894]

/-- Row 25 of section 4: the words `i * 0x11111111`. -/
def ramp : List Word :=
  [0x00000000, 0x11111111, 0x22222222, 0x33333333, 0x44444444, 0x55555555, 0x66666666, 0x77777777,
   0x88888888, 0x99999999, 0xAAAAAAAA, 0xBBBBBBBB, 0xCCCCCCCC, 0xDDDDDDDD, 0xEEEEEEEE, 0xFFFFFFFF]

/-! ### WellFormed: what is no record of 30_encoding.md rule R96 is refused -/

theorem test_wellFormed_space16 : (Txn.read 16 0 32).wellFormed = false := by decide

theorem test_wellFormed_space15 : (Txn.read 15 0 32).wellFormed = true := by decide

theorem test_wellFormed_data_too_wide : (Txn.write 5 0 8 0x100).wellFormed = false := by decide

theorem test_wellFormed_data_widest : (Txn.write 5 0 8 0xFF).wellFormed = true := by decide

theorem test_step_refuses_space16 : notARecord (step (waiting (.txn (.read 16 0 32)))) = true := by decide

theorem test_step_refuses_wide_data : notARecord (step (waiting (.txn (.write 5 0 8 0x100)))) = true := by decide

/-! ### Decoding: the words of 30_encoding.md rule R91 written out bit by bit -/

/-- Unit SEQ: INIT, `op` = 0x01. -/
theorem test_decode_init : decode 0b00000000000000000000000000000001 = .ok .init := by decide

/-- Unit PP: PAD, `op` = 0x02. -/
theorem test_decode_pad : decode 0b00000000000000000000000000000010 = .ok .pad := by decide

/-- Unit WR: TOBYTES, `op` = 0x04. -/
theorem test_decode_tobytes : decode 0b00000000000000000000000000000100 = .ok .tobytes := by decide

/-- Unit MS: EXPAND, `op` = 0x07. -/
theorem test_decode_expand : decode 0b00000000000000000000000000000111 = .ok .expand := by decide

/-- Unit CE: ROUNDS, `op` = 0x0A. -/
theorem test_decode_rounds : decode 0b00000000000000000000000000001010 = .ok .rounds := by decide

/-- Unit DF: DIGEST, `op` = 0x0D. -/
theorem test_decode_digest : decode 0b00000000000000000000000000001101 = .ok .digest := by decide

/-- The other commands' words, each `op` in its place. -/
theorem test_decode_rest :
    decode 0x00000003 = .ok .towords ∧ decode 0x00000005 = .ok .loadblk ∧ decode 0x00000006 = .ok .sched ∧
    decode 0x00000008 = .ok .loadv ∧ decode 0x00000009 = .ok .round ∧ decode 0x0000000B = .ok .addback ∧
    decode 0x0000000C = .ok .compress ∧ decode 0x0000000E = .ok .hash := by decide

/-- The words of section 4.1: what each records in ERR. -/
theorem test_illegal_words :
    ([(0x00000000, 0x00000003), (0x0000000F, 0x00000F03), (0x00000010, 0x00001003), (0x000000FF, 0x0000FF03),
      (0x00000101, 0x00000103), (0x0000010E, 0x00000E03), (0x80000001, 0x00000103), (0xFFFFFFFF, 0x0000FF03),
      (0x00000E00, 0x00000003)] : List (Nat × Word)).all (fun e =>
        after (does State.reset (.write 0 0 32 e.1)) fun t =>
          t.response == some (.err .illegalCommand) && t.ERR == e.2) = true := by decide

theorem test_table_word_of_hash : decodeTableWord 32 0x0000000E = some .hash := by decide

/-- The first step after reset with the word of INIT placed (rule R171). -/
theorem test_withFetchWord_runs_init :
    after (step (State.reset.withFetchWord 32 0x00000001)) (fun t =>
      t.response == some .ok && RegFile.content t.H 7 == some 0x5BE0CD19) = true := by decide

/-! ### Functions (section 2) -/

theorem test_add32_wraps : add32 0xFFFFFFFF 0x00000001 = 0x00000000 ∧ add32 0xFFFFFFFE 0x00000003 = 0x00000001 := by decide

theorem test_rotr : rotr 0x12345678 7 = 0xF02468AC ∧ rotr 0x12345678 31 = 0x2468ACF0 ∧ rotr 0x00000007 3 = 0xE0000000 := by
  decide

theorem test_shr_is_logical : shr 0x80000000 3 = 0x10000000 ∧ shr 0x00000007 3 = 0x00000000 := by decide

theorem test_sigmas :
    bigSig0 0xDEADBEEF = 0xB62E25AC ∧ bigSig1 0xDEADBEEF = 0x345E14A3 ∧ smallSig0 0xDEADBEEF = 0xABD31B0B ∧
    smallSig1 0xDEADBEEF = 0x689DBFEC := by decide

/-- The truth tables of section 2.2. -/
theorem test_ch_maj :
    ch 0xF0F0F0F0 0xCCCCCCCC 0xAAAAAAAA = 0xCACACACA ∧ maj 0xF0F0F0F0 0xCCCCCCCC 0xAAAAAAAA = 0xE8E8E8E8 := by decide

/-- Section 2.3, last row. -/
theorem test_round_function :
    sha256Round ⟨1, 2, 3, 4, 5, 6, 7, 8⟩ 0x428A2F98 0x80000000 =
      ⟨0x17323629, 1, 2, 3, 0xD72A322A, 5, 6, 7⟩ := by decide

/-- Section 2.4: the sum of the 64 round constants and of the 8 initial constants. -/
theorem test_constants :
    roundConstants.length = 64 ∧ roundConstants.foldl (· + ·) 0 = 0x941D1755 ∧ H0.foldl (· + ·) 0 = 0x6EA8DF67 := by
  decide +kernel

/-- Section 2.5: `z(L)` at and around the two edges. -/
theorem test_zeroFill :
    zeroFill 0 = 55 ∧ zeroFill 54 = 1 ∧ zeroFill 55 = 0 ∧ zeroFill 56 = 63 ∧ zeroFill 119 = 0 ∧ zeroFill 256 = 55 := by
  decide

/-- Section 2.6. -/
theorem test_toWords :
    toWords [0xDE, 0xAD, 0xBE, 0xEF, 0x00, 0x00, 0x00, 0x80] = some [0xDEADBEEF, 0x00000080] ∧
    toWords [0x01, 0x02, 0x03, 0x04, 0x05] = none ∧ toWords [] = some [] := by decide

/-! ### Commands (section 4) -/

/-- Row 2. -/
theorem test_init :
    after (exec .init { State.reset with BP := 7, TR := 5 }) (fun t =>
      t.response == some .ok && t.H == file 8 hInit && t.BP == 0 && t.TR == 5) = true := by decide

/-- Row 4. -/
theorem test_pad_abc :
    after (exec .pad sAbc) (fun t =>
      t.response == some .ok && t.PLEN == 64 &&
      t.PMB == cells ([0x61, 0x62, 0x63, 0x80] ++ List.replicate 52 0x00 ++ [0x00, 0x00, 0x00, 0x00, 0x00, 0x00, 0x00, 0x18]))
      = true := by decide +kernel

/-- Row 9. -/
theorem test_pad_capacity :
    after (exec .pad { State.reset with LEN := 0x100000000 }) (fun t =>
      t.response == some (.err .capacityError) && t.ERR == 0x00000202 && t.PLEN == 0) = true := by decide

/-- Row 11. -/
theorem test_towords :
    after (exec .towords { State.reset with
        PMB := cells [0x01, 0x02, 0x03, 0x04, 0x05, 0x06, 0x07, 0x08], PLEN := 8 }) (fun t =>
      t.response == some .ok && t.WSEQ == cells [0x01020304, 0x05060708] && t.WLEN == 2) = true := by decide

/-- Rows 12 and 14: CapacityError is checked first. -/
theorem test_towords_errors :
    after (exec .towords { State.reset with PLEN := 5, WLEN := 9 }) (fun t => t.ERR == 0x00000301 && t.WLEN == 9) = true ∧
    after (exec .towords { State.reset with PLEN := 321 }) (fun t => t.ERR == 0x00000302) = true := by decide

/-- Row 17. -/
theorem test_tobytes :
    after (exec .tobytes { State.reset with WSEQ := cells [0xDEADBEEF, 0x00000080, 0xFFFFFFFF], WLEN := 3 }) (fun t =>
      t.response == some .ok && t.PLEN == 12 &&
      t.PMB == cells [0xDE, 0xAD, 0xBE, 0xEF, 0x00, 0x00, 0x00, 0x80, 0xFF, 0xFF, 0xFF, 0xFF]) = true := by decide

/-- Row 18. -/
theorem test_tobytes_capacity :
    after (exec .tobytes { State.reset with WLEN := 81 }) (fun t => t.ERR == 0x00000402 && t.PLEN == 0) = true := by
  decide

/-- Row 20, with the block of row 25 in the place of `WSEQ[i] = i`. -/
theorem test_loadblk :
    after (exec .loadblk { State.reset with WSEQ := cells ramp, WLEN := 20 }) (fun t =>
      t.response == some .ok && t.W == file 64 ramp && t.TS == 16 && t.BP == 0) = true := by decide

/-- Row 23: `16 BP + 16 = 2^64 + 16` does not wrap. -/
theorem test_loadblk_no_wrap :
    after (exec .loadblk { State.reset with WLEN := 80, BP := 0x1000000000000000 }) (fun t =>
      t.response == some (.err .blockRangeError) && t.ERR == 0x00000505) = true := by decide

/-- Row 25. -/
theorem test_sched :
    after (exec .sched { State.reset with W := file 64 ramp, TS := 16 }) (fun t =>
      t.response == some .ok && RegFile.content t.W 16 == some 0xA86EEEEE && t.TS == 17) = true := by decide

/-- Row 24. -/
theorem test_sched_sequence :
    after (exec .sched State.reset) (fun t => t.ERR == 0x00000604 && t.TS == 64) = true := by decide

/-- Row 27. -/
theorem test_expand :
    after (exec .expand { State.reset with W := file 64 ramp, TS := 16 }) (fun t =>
      t.response == some .ok && RegFile.content t.W 62 == some 0x08568DAA && RegFile.content t.W 63 == some 0x1D02F062 &&
      t.TS == 64) = true := by decide +kernel

/-- Row 30. -/
theorem test_loadv :
    after (exec .loadv { State.reset with H := file 8 hInit }) (fun t =>
      t.response == some .ok && t.V == file 8 hInit && t.TR == 0) = true := by decide

/-- Row 32: after INIT and LOADV only, W[0] is unspecified, and so are a and e alone. Row 33. -/
theorem test_round :
    after (exec .round { State.reset with V := file 8 hInit, TR := 0 }) (fun t =>
      t.response == some .ok && t.TR == 1 &&
      [(1, 0x6a09e667), (2, 0xbb67ae85), (3, 0x3c6ef372), (5, 0x510e527f), (6, 0x9b05688c), (7, 0x1f83d9ab)].all
        (fun e : Nat × Word => RegFile.content t.V e.1 == some e.2)) = true ∧
    after (exec .round { State.reset with V := file 8 hInit, W := file 64 ramp, TS := 16, TR := 0 }) (fun t =>
      t.response == some .ok && t.TR == 1 &&
      t.V == file 8 [0xfc08884d, 0x6a09e667, 0xbb67ae85, 0x3c6ef372, 0x98c7e2a2, 0x510e527f, 0x9b05688c, 0x1f83d9ab])
      = true := by decide

/-- Row 34: round 16 waits for its schedule word. -/
theorem test_round_interlock :
    after (exec .round { State.reset with TS := 16, TR := 16 }) (fun t => t.ERR == 0x00000904 && t.TR == 16) = true := by
  decide

/-- Section 3.3: from H0 to the last row. -/
theorem test_rounds :
    after (exec .rounds { State.reset with V := file 8 hInit, W := file 64 abcSchedule, TR := 0 }) (fun t =>
      t.response == some .ok && t.V == file 8 abcWorking && t.TR == 64) = true := by decide +kernel

/-- Row 35. -/
theorem test_rounds_sequence :
    after (exec .rounds { State.reset with TS := 16, TR := 16 }) (fun t => t.ERR == 0x00000A04 && t.TR == 16) = true := by
  decide

/-- Row 41: each word wraps by itself. -/
theorem test_addback :
    after (exec .addback { State.reset with
        H := file 8 (List.replicate 8 0xFFFFFFFF)
        V := file 8 [0x00000001, 0x00000002, 0x00000003, 0x00000004, 0x80000000, 0xFFFFFFFF, 0x00000000, 0x7FFFFFFF] })
      (fun t =>
        t.response == some .ok &&
        t.H == file 8 [0x00000000, 0x00000001, 0x00000002, 0x00000003, 0x7FFFFFFF, 0xFFFFFFFE, 0xFFFFFFFF, 0x7FFFFFFE])
      = true := by decide

/-- Row 38. -/
theorem test_addback_sequence :
    after (exec .addback { State.reset with TR := 0 }) (fun t => t.ERR == 0x00000B04) = true := by decide

/-- Row 45: COMPRESS ignores and overwrites TS and TR. -/
theorem test_compress :
    after (exec .compress { State.reset with
        H := file 8 (List.replicate 8 0), WSEQ := cells (List.replicate 16 0), WLEN := 16, TS := 20, TR := 3 }) (fun t =>
      t.response == some .ok && t.BP == 1 && t.TS == 64 && t.TR == 64 &&
      t.H == file 8 [0x7ca51614, 0x425c3ba8, 0xce54dd2f, 0xc2020ae7, 0xb6e574d1, 0x98136d0f, 0xae7e26cc, 0xbf0be7a6])
      = true := by decide +kernel

/-- Row 43. -/
theorem test_compress_range :
    after (exec .compress { State.reset with WLEN := 16, BP := 1 }) (fun t => t.ERR == 0x00000C05 && t.BP == 1) = true := by
  decide

/-- Row 46. -/
theorem test_digest :
    after (exec .digest { State.reset with
        H := file 8 [0x00010203, 0x04050607, 0x08090A0B, 0x0C0D0E0F, 0x10111213, 0x14151617, 0x18191A1B, 0x1C1D1E1F] })
      (fun t => t.response == some .ok && t.DIG == file 32 ((List.range 32).map (BitVec.ofNat 8))) = true := by
  decide

/-- Row 49: leftovers of earlier commands do not matter. -/
theorem test_hash :
    after (exec .hash { sAbc with BP := 9, TS := 30, TR := 2, PLEN := 999, WLEN := 999, ERR := 0x00000301 }) (fun t =>
      t.response == some .ok && t.PLEN == 64 && t.WLEN == 16 && t.BP == 1 && t.TS == 64 && t.TR == 64 &&
      t.ERR == 0x00000301 &&
      t.DIG == file 32
        [0xba, 0x78, 0x16, 0xbf, 0x8f, 0x01, 0xcf, 0xea, 0x41, 0x41, 0x40, 0xde, 0x5d, 0xae, 0x22, 0x23,
         0xb0, 0x03, 0x61, 0xa3, 0x96, 0x17, 0x7a, 0x9c, 0xb4, 0x10, 0xff, 0x61, 0xf2, 0x00, 0x15, 0xad])
      = true := by decide +kernel

/-- Row 48. -/
theorem test_hash_capacity :
    after (exec .hash { State.reset with LEN := 257 }) (fun t =>
      t.ERR == 0x00000E02 && t.PLEN == 0 && RegFile.content t.H 0 == none) = true := by decide

/-! ### Host transactions (section 4.2) -/

/-- Rows 1 to 4. -/
theorem test_read_csr :
    after (does State.reset (.read 0 10 32)) (fun t => t.response == some (.ok32 0x00000040)) = true ∧
    after (does State.reset (.read 0 0 32)) (fun t => t.response == some (.ok32 0x00000000)) = true := by decide

/-- Rows 8 to 13: the halves of LEN are independent. -/
theorem test_write_half :
    after (does { State.reset with LEN := 0x00000001AAAAAAAA } (.write 0 2 32 3)) (fun t =>
      t.response == some .ok && t.LEN == 0x0000000100000003) = true := by decide

/-- Rows 14 and 16: the last cell of MSG, and the offset after it. -/
theorem test_write_msg :
    after (does State.reset (.write 5 255 8 0x7F)) (fun t => t.response == some .ok && t.MSG == [(255, 0x7F)]) = true ∧
    after (does State.reset (.write 5 256 8 0x00)) (fun t => t.ERR == 0x00000006 && t.MSG == []) = true := by decide

/-- Rows 18 and 20: ERR keeps the first error, and any write clears it. -/
theorem test_err_sticky :
    after (does { State.reset with ERR := 0x00000006 } (.write 0 0 32 0x0000000F)) (fun t =>
      t.response == some (.err .illegalCommand) && t.ERR == 0x00000006) = true ∧
    after (does { State.reset with ERR := 0x00000006 } (.write 0 1 32 0xFFFFFFFF)) (fun t =>
      t.response == some .ok && t.ERR == 0) = true := by decide

/-- Rows 22 to 38: each is refused with BusError and records 0x00000006. -/
theorem test_refused :
    [Txn.write 2 0 32 1, .write 3 63 32 1, .write 4 0 8 1, .write 0 10 32 0x10, .write 0 11 32 0, .read 0 12 32,
     .read 8 0 32, .write 15 0 32 0, .read 1 8 32, .read 3 64 32, .read 4 32 8, .read 6 320 8, .read 7 80 32,
     .write 5 0 32 0x61626364, .read 7 0 8, .write 0 0 8 0x0E].all (fun tx =>
        after (does State.reset tx) fun t => t.response == some (.err .busError) && t.ERR == 0x00000006) = true := by
  decide

/-! ### Witnesses: states and operands that meet all hypotheses of an obligation, each clause at a boundary -/

/-- A block is loaded and no round is done. -/
def sLoaded : State :=
  { State.reset with H := file 8 hInit, V := file 8 hInit, W := file 64 ramp, TS := 16, TR := 0, response := some .ok }

theorem sLoaded_inv : sLoaded.Inv := by
  constructor <;> decide

theorem loaded_inv (e : List HostEvent) : State.Inv { sLoaded with pending := e } := { sLoaded_inv with }

theorem loaded_loaded (e : List HostEvent) : State.Loaded { sLoaded with pending := e } :=
  ⟨fun _ => (by decide : ∀ i, i < sLoaded.TS.toNat → (RegFile.content sLoaded.W i).isSome = true),
   fun _ => (by decide : ∀ i, i < 8 → (RegFile.content sLoaded.V i).isSome = true)⟩

/-- Clauses: `zero` at its smallest and largest, `op` = 0x00, 0x0F and 0xFF, and the two ends of the opcode map. -/
theorem witness_EveryValueIsACommandOrIllegal :
    (0x00000100 : Word).extractLsb' 8 24 ≠ 0 ∧ (0xFFFFFF01 : Word).extractLsb' 8 24 ≠ 0 ∧
    ((0x00000000 : Word).extractLsb' 0 8).toNat = 0x00 ∧ ((0x0000000F : Word).extractLsb' 0 8).toNat ≥ 0x0F ∧
    ((0x000000FF : Word).extractLsb' 0 8).toNat ≥ 0x0F ∧
    [(0x00000001 : Word), 0x0000000E].all (fun c => c.extractLsb' 8 24 == 0 &&
      decide (0x01 ≤ (c.extractLsb' 0 8).toNat) && decide ((c.extractLsb' 0 8).toNat ≤ 0x0E)) = true := by decide

/-- The first clause with a write to MSG and a read of the last reserved space, the second with HASH. -/
theorem witness_StepRunsTheDecodedCommand :
    ((waiting (.txn (.write 5 255 8 0xFF))).pending = .txn (.write 5 255 8 0xFF) :: [] ∧
      (Txn.write 5 255 8 0xFF).wellFormed = true) ∧
    ((waiting (.txn (.read 15 0 32))).pending = .txn (.read 15 0 32) :: [] ∧ (Txn.read 15 0 32).wellFormed = true) ∧
    (waiting (.txn (.write 0 0 32 0x0000000E))).pending = .txn (.write 0 0 32 (0x0000000E : Word).toNat) :: [] ∧
    decode 0x0000000E = .ok .hash := by decide

theorem witness_IdleEngineHoldsItsState : State.reset.pending = [] := by decide

theorem witness_ResetEventGivesTheResetState : (waiting .reset).pending = .reset :: [] := by decide

theorem witness_NoAdmissibleEventStopsTheEngine :
    (waiting (.txn (.write 15 0 32 0xFFFFFFFF))).hostOk = true ∧
    (waiting (.txn (.read 16 0 32))).pending = .txn (.read 16 0 32) :: [] ∧
    (HostEvent.txn (.read 16 0 32)).wellFormed = false := by decide

theorem witness_StepsKeepTheParameterAndTakeOneEvent : ∃ t, step (waiting (.txn (.read 0 10 32))) = .next t := ⟨_, rfl⟩

/-- The two ends of the capacities rule R6 admits, and the one of `State.reset`. -/
theorem witness_InvariantsHoldAtReset :
    (Config.mk 0).wf = true ∧ (Config.mk (2 ^ 61 - 1)).wf = true ∧ Config.reference.wf = true := by decide

theorem witness_EveryStepKeepsTheInvariant :
    State.Inv { sLoaded with pending := [.txn (.write 0 0 32 0x00000006)] } ∧
    ∃ t, step { sLoaded with pending := [.txn (.write 0 0 32 0x00000006)] } = .next t :=
  ⟨loaded_inv _, _, rfl⟩

theorem witness_EveryStepKeepsWhatIsLoaded :
    State.Inv { sLoaded with pending := [.txn (.write 0 0 32 0x00000009)] } ∧
    State.Loaded { sLoaded with pending := [.txn (.write 0 0 32 0x00000009)] } ∧
    ∃ t, step { sLoaded with pending := [.txn (.write 0 0 32 0x00000009)] } = .next t :=
  ⟨loaded_inv _, loaded_loaded _, _, rfl⟩

theorem witness_ErrorsWriteOnlyErr :
    (waiting (.txn (.write 0 0 32 0x00000006))).pending ≠ [] ∧
    (∃ t, step (waiting (.txn (.write 0 0 32 0x00000006))) = .next t ∧ t.response = some (.err .sequenceError)) ∧
    ({ waiting (.txn (.read 8 0 32)) with ERR := 6 } : State).ERR ≠ 0 ∧
    ∃ t, step { waiting (.txn (.read 8 0 32)) with ERR := 6 } = .next t ∧ t.response = some (.err .busError) :=
  ⟨by decide, ⟨_, rfl, rfl⟩, by decide, _, rfl, rfl⟩

/-- The length, counter and pointer one past the last value that raises nothing; and one command that raises nothing. -/
theorem witness_CommandsRaiseExactlyTheirErrors :
    raises .pad { State.reset with LEN := 257 } .capacityError ∧
    raises .hash { State.reset with LEN := 257 } .capacityError ∧
    raises .towords { State.reset with PLEN := 321 } .capacityError ∧
    raises .towords { State.reset with PLEN := 319 } .invalidLength ∧
    raises .tobytes { State.reset with WLEN := 81 } .capacityError ∧
    raises .loadblk { State.reset with WLEN := 81 } .blockRangeError ∧
    raises .compress { State.reset with WLEN := 31, BP := 1 } .blockRangeError ∧
    raises .sched State.reset .sequenceError ∧
    raises .round { State.reset with TS := 16, TR := 16 } .sequenceError ∧
    raises .rounds { State.reset with TS := 63 } .sequenceError ∧
    raises .addback { State.reset with TR := 63 } .sequenceError := by
  simp [raises, State.reset, State.resetWith, pmbCap, wseqCap, Config.reference]

theorem witness_CommandsRaiseExactlyTheirErrors_none : ∀ c, ¬ raises .pad { State.reset with LEN := 256 } c := by
  intro c
  cases c <;> simp [raises, State.reset, State.resetWith, Config.reference]

theorem witness_OnlyErrWriteOrResetClearsTheRecord :
    (∃ t, step { waiting (.txn (.write 0 1 32 7)) with ERR := 6 } = .next t ∧ (6 : Word) ≠ 0 ∧ t.ERR ≠ 6) ∧
    ∃ t, step { waiting .reset with ERR := 6 } = .next t ∧ t.ERR ≠ 6 :=
  ⟨⟨_, rfl, by decide, by decide⟩, _, rfl, by decide⟩

/-- Each clause of rule R197 one past its edge: space 8, each kind of offset, the width, each read-only cell. -/
theorem witness_BusErrorExactlyWhenRefused :
    [Txn.read 8 0 32, .read 0 12 32, .write 5 256 8 0, .read 6 320 8, .read 7 80 32, .write 5 0 32 0, .write 2 7 32 0,
      .write 3 63 32 0, .write 4 31 8 0, .write 0 10 32 0, .write 0 11 32 0].all Txn.wellFormed = true ∧
    busRefused Config.reference (.read 8 0 32) ∧ busRefused Config.reference (.read 0 12 32) ∧
    busRefused Config.reference (.write 5 256 8 0) ∧ busRefused Config.reference (.read 6 320 8) ∧
    busRefused Config.reference (.read 7 80 32) ∧ busRefused Config.reference (.write 5 0 32 0) ∧
    busRefused Config.reference (.write 2 7 32 0) ∧ busRefused Config.reference (.write 3 63 32 0) ∧
    busRefused Config.reference (.write 4 31 8 0) ∧ busRefused Config.reference (.write 0 10 32 0) ∧
    busRefused Config.reference (.write 0 11 32 0) := by
  simp [busRefused, accessRefused, spaceTable, Config.reference, Txn.wellFormed, Txn.spaceOk, Txn.dataOk]

/-- The last cell of a CSR, of a register file and of a memory. -/
theorem witness_ReadReturnsWhatTheCellHolds :
    (spaceTable State.reset.cfg)[0]? = some (32, 12) ∧ 11 < 12 ∧ cellContent State.reset 0 11 = some (.ok32 0x40) ∧
    (spaceTable sLoaded.cfg)[1]? = some (32, 8) ∧ cellContent sLoaded 1 7 = some (.ok32 0x5BE0CD19) ∧
    (spaceTable sAbc.cfg)[5]? = some (8, 256) ∧ 2 < 256 ∧ cellContent sAbc 5 2 = some (.ok8 0x63) := by decide

theorem witness_ReadOfUnwrittenCellIsAFreeDraw :
    (spaceTable State.reset.cfg)[1]? = some (32, 8) ∧ 7 < 8 ∧ cellContent State.reset 1 7 = none ∧
    (spaceTable State.reset.cfg)[4]? = some (8, 32) ∧ 31 < 32 ∧ cellContent State.reset 4 31 = none := by decide

/-- The first and last plain CSR cell, and the last cell of each writable space, with the largest data. -/
theorem witness_WriteChangesOneCellOnly :
    [(0, 2, 32), (0, 9, 32), (1, 7, 32), (5, 255, 8), (6, 319, 8), (7, 79, 32)].all (fun e : Nat × Nat × Nat =>
      decide (((spaceTable State.reset.cfg)[e.1]?.map Prod.fst) = some e.2.2) &&
      decide ((spaceTable State.reset.cfg)[e.1]?.any fun p => decide (e.2.1 < p.2)) &&
      decide (2 ^ e.2.2 - 1 < 2 ^ e.2.2) && !decide (e.1 = 0 ∧ e.2.1 ≤ 1)) = true ∧
    ¬ busRefused State.reset.cfg (.write 0 2 32 0xFFFFFFFF) ∧ ¬ busRefused State.reset.cfg (.write 0 9 32 0xFFFFFFFF) ∧
    ¬ busRefused State.reset.cfg (.write 1 7 32 0xFFFFFFFF) ∧ ¬ busRefused State.reset.cfg (.write 5 255 8 0xFF) ∧
    ¬ busRefused State.reset.cfg (.write 6 319 8 0xFF) ∧ ¬ busRefused State.reset.cfg (.write 7 79 32 0xFFFFFFFF) := by
  refine ⟨by decide, ?_⟩
  simp [busRefused, accessRefused, spaceTable, Config.reference, State.reset, State.resetWith]

theorem witness_ReadAfterWriteReturnsTheValue :
    0xFFFFFFFF < 2 ^ 32 ∧ ¬ ((7 : Nat) = 0 ∧ 79 ≤ 1) ∧
    (∃ t, transact (.write 7 79 32 0xFFFFFFFF) State.reset = .next t ∧ t.response = some .ok) ∧
    ∃ t, transact (.write 0 2 32 0xFFFFFFFF) State.reset = .next t ∧ t.response = some .ok :=
  ⟨by decide, by decide, ⟨_, rfl, rfl⟩, _, rfl, rfl⟩

theorem witness_CommandsWriteOnlyTheirPieces : ∃ t, exec .compress { State.reset with WLEN := 16 } = .next t := ⟨_, rfl⟩

theorem witness_ZeroFillIsTheDoubleModuloForm : (55 + 9) % 64 = 0 := by decide

/-- Of the message "abc": the byte after the terminator and the last zero byte. -/
theorem witness_PadHasItsTestableProperties :
    [(0x61 : Byte), 0x62, 0x63].length ≤ 2 ^ 61 - 1 ∧ [(0x61 : Byte), 0x62, 0x63].length < 4 ∧
    4 < (pad [0x61, 0x62, 0x63]).length - 8 ∧ 55 < (pad [0x61, 0x62, 0x63]).length - 8 := by decide

theorem witness_WordReorderRoundTrip :
    ([] : List Byte).length % 4 = 0 ∧ [(1 : Byte), 2, 3, 4].length % 4 = 0 ∧ [(1 : Byte), 2, 3].length % 4 ≠ 0 ∧
    [(1 : Byte), 2, 3, 4, 5].length % 4 ≠ 0 := by decide

theorem witness_WordReorderIsBigEndian :
    toWords [0x01, 0x02, 0x03, 0x04] = some [0x01020304] ∧ 0 < [(0x01 : Byte), 0x02, 0x03, 0x04].length / 4 ∧
    [(0x01020304 : Word)][0]? = some 0x01020304 := by decide

theorem witness_RotationAndShiftBitByBit : 31 < 32 ∧ 1 ≤ 1 ∧ 31 ≤ 31 := by decide

theorem witness_ChAndMajBitByBit : 0 < 32 ∧ 31 < 32 := by decide

theorem witness_ScheduleFollowsTheRecurrence : ramp.length = 16 ∧ 15 ≤ 15 ∧ 16 ≤ 16 ∧ 63 ≤ 63 := by decide

theorem witness_CompressIsSixtyFourRoundsAndAdd : hInit.length = 8 ∧ ramp.length = 16 ∧ 63 ≤ 63 ∧ 7 ≤ 7 := by decide

theorem witness_RoundConstantsAreCubeRoots : 0 ≤ 63 ∧ 63 ≤ 63 := by decide

theorem witness_InitialConstantsAreSquareRoots : 0 ≤ 7 ∧ 7 ≤ 7 := by decide

/-- The error clause at 257 bytes, the other clause at 256 and at 0. -/
theorem witness_PadStoresThePaddedMessage :
    ({ State.reset with LEN := 257 } : State).LEN.toNat > State.reset.cfg.msgCap ∧ State.reset.cfg.wf = true ∧
    ({ State.reset with LEN := 256 } : State).LEN.toNat ≤ State.reset.cfg.msgCap ∧
    State.reset.LEN.toNat ≤ State.reset.cfg.msgCap := by decide

theorem witness_TowordsStoresTheWords :
    ({ State.reset with PLEN := 321 } : State).PLEN.toNat > pmbCap State.reset.cfg ∧
    ({ State.reset with PLEN := 319 } : State).PLEN.toNat ≤ pmbCap State.reset.cfg ∧
    ({ State.reset with PLEN := 319 } : State).PLEN.toNat % 4 ≠ 0 ∧
    ({ State.reset with PLEN := 320 } : State).PLEN.toNat ≤ pmbCap State.reset.cfg ∧
    ({ State.reset with PLEN := 320 } : State).PLEN.toNat % 4 = 0 := by decide

theorem witness_TobytesStoresTheBytes :
    ({ State.reset with WLEN := 81 } : State).WLEN.toNat > wseqCap State.reset.cfg ∧ State.reset.cfg.wf = true ∧
    ({ State.reset with WLEN := 80 } : State).WLEN.toNat ≤ wseqCap State.reset.cfg := by decide

/-- The last whole block, with the word sequence as long as the memory; and one word, or one block, too far. -/
theorem witness_LoadblkCopiesTheBlock :
    ({ State.reset with WLEN := 81 } : State).WLEN.toNat > wseqCap State.reset.cfg ∧
    16 * ({ State.reset with BP := 5 } : State).BP.toNat + 16 > ({ State.reset with WLEN := 80 } : State).WLEN.toNat ∧
    ({ State.reset with WLEN := 80 } : State).WLEN.toNat ≤ wseqCap State.reset.cfg ∧
    16 * ({ State.reset with BP := 4 } : State).BP.toNat + 16 ≤ ({ State.reset with WLEN := 80 } : State).WLEN.toNat := by
  decide

theorem witness_SchedComputesTheNextWord :
    State.reset.TS = 64 ∧ 16 ≤ sLoaded.TS.toNat ∧ sLoaded.TS.toNat ≤ 63 ∧
    16 ≤ ({ State.reset with TS := 63 } : State).TS.toNat ∧ ({ State.reset with TS := 63 } : State).TS.toNat ≤ 63 := by
  decide

theorem witness_ExpandComputesTheRemainingWords :
    State.reset.TS = 64 ∧ sLoaded.TS = 16 ∧ 16 ≤ sLoaded.TS.toNat ∧ ramp.length = 16 ∧
    (∀ i, i < 16 → RegFile.content sLoaded.W i = ramp[i]?) ∧
    (∀ i, i < sLoaded.TS.toNat → (RegFile.content sLoaded.W i).isSome = true) := by decide

theorem witness_RoundPerformsTheNextRound :
    State.reset.TR = 64 ∧
    ({ State.reset with TS := 16, TR := 16 } : State).TR.toNat ≥ ({ State.reset with TS := 16 } : State).TS.toNat ∧
    sLoaded.TR.toNat < 64 ∧ sLoaded.TR.toNat < sLoaded.TS.toNat ∧
    ({ State.reset with TR := 63 } : State).TR.toNat < State.reset.TS.toNat := by decide

theorem witness_RoundsPerformsTheRemainingRounds :
    ({ State.reset with TS := 63 } : State).TS ≠ 64 ∧ State.reset.TS = 64 ∧ State.reset.TR = 64 ∧
    ({ sLoaded with W := file 64 abcSchedule, TS := 64 } : State).TS = 64 ∧ sLoaded.TR.toNat ≤ 64 ∧
    (∀ i, i < 8 → (RegFile.content sLoaded.V i).isSome = true) ∧
    (∀ t, sLoaded.TR.toNat ≤ t → t ≤ 63 → (RegFile.content (file 64 abcSchedule) t).isSome = true) := by
  refine ⟨by decide, by decide, by decide, by decide, by decide, by decide, ?_⟩
  intro t _ h
  exact (by decide +kernel : ∀ t, t < 64 → (RegFile.content (file 64 abcSchedule) t).isSome = true) t (by omega)

theorem witness_AddbackAddsTheWorkingState :
    ({ State.reset with TR := 63 } : State).TR ≠ 64 ∧ State.reset.TR = 64 := by decide

theorem witness_CompressUpdatesTheHashState :
    ({ State.reset with WLEN := 81 } : State).WLEN.toNat > wseqCap State.reset.cfg ∧
    16 * ({ State.reset with BP := 1 } : State).BP.toNat + 16 > ({ State.reset with WLEN := 31 } : State).WLEN.toNat ∧
    ({ sLoaded with WLEN := 16 } : State).WLEN.toNat ≤ wseqCap sLoaded.cfg ∧
    16 * sLoaded.BP.toNat + 16 ≤ ({ sLoaded with WLEN := 16 } : State).WLEN.toNat ∧
    (∀ i, i < 8 → (RegFile.content sLoaded.H i).isSome = true) := by decide

theorem witness_HashComputesTheDigest :
    ({ State.reset with LEN := 257 } : State).LEN.toNat > State.reset.cfg.msgCap ∧ State.reset.cfg.wf = true ∧
    ({ State.reset with LEN := 256 } : State).LEN.toNat ≤ State.reset.cfg.msgCap ∧
    State.reset.LEN.toNat ≤ State.reset.cfg.msgCap := by decide

/-- Two engines with the message "abc" and different capacities, counters and hash states. -/
theorem witness_HashDependsOnTheMessageOnly :
    let s' : State := { sLoaded with cfg := { msgCap := 64 }, MSG := cells [0x61, 0x62, 0x63, 0x64], LEN := 3, BP := 9 }
    sAbc.cfg.wf = true ∧ s'.cfg.wf = true ∧ sAbc.LEN.toNat ≤ sAbc.cfg.msgCap ∧ s'.LEN.toNat ≤ s'.cfg.msgCap ∧
    s'.LEN = sAbc.LEN ∧
    (∀ i, i < sAbc.LEN.toNat → (Memory.content sAbc.MSG i).isSome = true ∧
      Memory.content s'.MSG i = Memory.content sAbc.MSG i) ∧
    (∃ t, exec .hash sAbc = .next t) ∧ ∃ t', exec .hash s' = .next t' :=
  ⟨by decide, by decide, by decide, by decide, by decide, by decide, ⟨_, rfl⟩, _, rfl⟩

theorem witness_CompressIsItsFiveSteps :
    ({ State.reset with WLEN := 80 } : State).WLEN.toNat ≤ wseqCap State.reset.cfg ∧
    16 * ({ State.reset with BP := 4 } : State).BP.toNat + 16 ≤ ({ State.reset with WLEN := 80 } : State).WLEN.toNat := by
  decide

/-- With TS = 64 and the response OK, and with TS = 16 and an error response. -/
theorem witness_ExpandIsRepeatedSched :
    (({ sLoaded with TS := 64 } : State).response = some .ok ∧ ({ sLoaded with TS := 64 } : State).TS.toNat ≤ 64) ∧
    ¬ ({ sLoaded with response := some (.err .busError) } : State).TS.toNat = 64 ∧ sLoaded.TS.toNat ≤ 64 := by decide

/-- With TR = 64 and the response OK, and with TR = 0 and an error response. -/
theorem witness_RoundsIsRepeatedRound :
    (({ sLoaded with TS := 64, TR := 64 } : State).response = some .ok ∧
      ({ sLoaded with TS := 64, TR := 64 } : State).TS = 64 ∧ ({ sLoaded with TS := 64, TR := 64 } : State).TR.toNat ≤ 64) ∧
    ¬ ({ sLoaded with TS := 64, response := some (.err .busError) } : State).TR.toNat = 64 ∧ sLoaded.TR.toNat ≤ 64 := by
  decide

theorem witness_SchedAndRoundCommute :
    State.Inv { sLoaded with pending := [] } ∧ State.Loaded { sLoaded with pending := [] } ∧ sLoaded.TS.toNat ≤ 63 ∧
    sLoaded.TR.toNat < sLoaded.TS.toNat :=
  ⟨loaded_inv _, loaded_loaded _, by decide, by decide⟩

theorem witness_TobytesAfterTowordsRestoresTheBytes :
    let s : State := { State.reset with PMB := cells [0x01, 0x02, 0x03, 0x04], PLEN := 4 }
    s.cfg.wf = true ∧ (∃ t, exec .towords s = .next t ∧ t.response = some .ok) ∧
    ∀ i, i < s.PLEN.toNat → (Memory.content s.PMB i).isSome = true :=
  ⟨by decide, ⟨_, rfl, rfl⟩, by decide⟩

theorem witness_CompressAfterHashIsOutOfRange :
    sAbc.cfg.wf = true ∧ sAbc.LEN.toNat ≤ sAbc.cfg.msgCap ∧ ∃ t, exec .hash sAbc = .next t :=
  ⟨by decide, by decide, _, rfl⟩

/-- The last bit a shift reaches, the first it does not, and the top bit. -/
theorem witness_SigmasAreTheirThreeTerms : 0 < 32 ∧ 21 < 32 ∧ 22 < 32 ∧ 28 < 32 ∧ 29 < 32 ∧ 31 < 32 := by decide

end Sys2Proof.Tests
end

section
/-! SUPPORT. The scope of the model (00_scope.md): which events a step performs and which it refuses, what every step
leaves of the configuration and of the queue, the invariants after reset, the primitives bit by bit, and that the
digest is a function of the message. -/

namespace Sys2Proof.Machine

/-! ### What a step does, by the oldest pending event -/

theorem step_idle {s : State} (h : s.pending = []) : step s = .next s := by
  simp [step, h]

theorem step_reset {s : State} {rest : List HostEvent} (h : s.pending = .reset :: rest) :
    step s = .next (takeReset { s with pending := rest }) := by
  simp [step, h, hostEvent, HostEvent.wellFormed]

theorem step_txn {s : State} {tx : Txn} {rest : List HostEvent} (h : s.pending = .txn tx :: rest)
    (hw : tx.wellFormed = true) : step s = transact tx { s with pending := rest } := by
  simp [step, h, hostEvent, HostEvent.wellFormed, hw]

theorem step_notATransaction {s : State} {e : HostEvent} {rest : List HostEvent} (h : s.pending = e :: rest)
    (hw : e.wellFormed = false) : step s = .refused .notATransaction := by
  simp [step, h, hostEvent, hw]

/-- The CMD write of any 32-bit value is a transaction record of 30_encoding.md rule R96. -/
theorem cmdWrite_wellFormed (c : Word) : (cmdWrite c).wellFormed = true := by
  have hc : c.toNat < 2 ^ 32 := c.isLt
  simpa [cmdWrite, Txn.wellFormed, Txn.spaceOk, Txn.dataOk] using hc

/-- The CMD write of a command word is `exec` of that command. -/
theorem transact_cmd_of_decode {c : Word} {i : Instr} (h : decode c = .ok i) (s : State) :
    transact (cmdWrite c) s = exec i s := by
  rw [transact_cmd, command_eq, h]

/-- Settles O4: the well-formed record is performed, and for a CMD write that is `exec` of the decoded command. -/
theorem stepRunsTheDecodedCommand : Obligations.StepRunsTheDecodedCommand := by
  refine ⟨fun s tx rest hp hw => step_txn hp hw, fun s c i rest hp hd => ?_⟩
  rw [step_txn hp (cmdWrite_wellFormed c)]
  exact transact_cmd_of_decode hd _

/-- Settles O5. -/
theorem idleEngineHoldsItsState : Obligations.IdleEngineHoldsItsState := fun _ => step_idle

/-! ### What every step leaves: the configuration, and the queue but for the event taken -/

theorem exec_keeps_cfg_pending {i : Instr} {s t : State} (h : exec i s = .next t) :
    t.cfg = s.cfg ∧ t.pending = s.pending := by
  obtain ⟨hcfg, -, -, -, hpending⟩ := effectOf_keep i s
  rcases exec_cases h with ⟨c, -, rfl⟩ | ⟨-, rfl⟩
  · exact ⟨rfl, rfl⟩
  · exact ⟨hcfg, hpending⟩

theorem transact_keeps_cfg_pending {tx : Txn} {s t : State} (h : transact tx s = .next t) :
    t.cfg = s.cfg ∧ t.pending = s.pending := by
  rcases transact_cases h with ⟨c, op, rfl, -⟩ | ⟨r, rfl, -⟩ | ⟨i, hi⟩ |
    ⟨sp, space, off, width, data, -, -, -, -, rfl⟩
  · exact ⟨rfl, rfl⟩
  · exact ⟨rfl, rfl⟩
  · exact exec_keeps_cfg_pending hi
  · obtain ⟨hcfg, hpending, -⟩ := cellWrite_keep s sp off data
    exact ⟨hcfg, hpending⟩

theorem step_keeps_cfg_takes_event {s t : State} (h : step s = .next t) :
    t.cfg = s.cfg ∧ t.pending = s.pending.tail := by
  rcases step_cases h with ⟨hp, rfl⟩ | ⟨rest, hp, rfl⟩ | ⟨tx, rest, hp, -, ht⟩
  · simp [hp]
  · simp [hp]
  · simpa [hp] using transact_keeps_cfg_pending ht

/-- A step on a queue of admissible events answers a next state. -/
theorem step_isNext {s : State} (h : s.hostOk = true) : ∃ t, step s = .next t := by
  cases hp : s.pending with
  | nil => exact ⟨s, step_idle hp⟩
  | cons e rest =>
    cases e with
    | reset => exact ⟨_, step_reset hp⟩
    | txn tx =>
      have hw : tx.wellFormed = true := by
        simp only [State.hostOk, hp, List.all_cons, Bool.and_eq_true] at h
        exact h.1
      rw [step_txn hp hw]
      exact transact_isNext tx _

/-- The events still pending after a step are admissible if those before it were. -/
theorem step_keeps_hostOk {s t : State} (h : s.hostOk = true) (hst : step s = .next t) : t.hostOk = true := by
  obtain ⟨-, hpending⟩ := step_keeps_cfg_takes_event hst
  rw [State.hostOk, List.all_eq_true] at h ⊢
  rw [hpending]
  exact fun e he => h e (List.mem_of_mem_tail he)

/-- Settles O8: every transaction answers a next state, and a step only takes events from the queue. -/
theorem noAdmissibleEventStopsTheEngine : Obligations.NoAdmissibleEventStopsTheEngine := by
  refine ⟨fun s h => ?_, fun s e rest hp hw => step_notATransaction hp hw⟩
  obtain ⟨t, ht⟩ := step_isNext h
  exact ⟨t, ht, step_keeps_hostOk h ht⟩

/-! ### The invariants after reset -/

theorem resetWith_inv {c : Config} (h : c.wf = true) : (State.resetWith c).Inv where
  cfg_wf := h
  ts_ge := by simp
  ts_le := by simp
  tr_le := by simp
  err_reserved := by simp [errReserved]
  err_cause := by simp [errCause]
  msg_wf := rfl
  msg_below := rfl
  pmb_wf := rfl
  pmb_below := rfl
  wseq_wf := rfl
  wseq_below := rfl

/-- Both counters are 64 after reset, so no word and no round is due. -/
theorem resetWith_loaded (c : Config) : (State.resetWith c).Loaded where
  schedule := fun h => absurd h (by simp)
  working := fun h => absurd h (by simp)

theorem reference_wf : Config.reference.wf = true := by decide

/-- Settles O10. -/
theorem invariantsHoldAtReset : Obligations.InvariantsHoldAtReset :=
  ⟨fun c h => ⟨resetWith_inv h, resetWith_loaded c⟩, resetWith_inv reference_wf, resetWith_loaded _⟩

/-! ### Rotation and shift (00_scope.md rules R11 and R12) -/

theorem shr_getLsbD (x : Word) (n i : Nat) : (shr x n).getLsbD i = (decide (i + n < 32) && x.getLsbD (i + n)) := by
  rw [shr, BitVec.getLsbD_ushiftRight, Nat.add_comm n i]
  by_cases h : i + n < 32
  · simp [h]
  · simp [h, BitVec.getLsbD_of_ge x (i + n) (by omega)]

theorem shr_toNat (x : Word) (n : Nat) : (shr x n).toNat = x.toNat / 2 ^ n := by
  rw [shr, BitVec.toNat_ushiftRight, Nat.shiftRight_eq_div_pow]

/-- Below bit `32 - n` the right shift gives the bit, from there on the left shift does. -/
theorem rotr_getLsbD (x : Word) {n i : Nat} (hn : n ≤ 31) (hi : i < 32) :
    (rotr x n).getLsbD i = x.getLsbD ((i + n) % 32) := by
  rw [rotr, BitVec.getLsbD_or, BitVec.getLsbD_ushiftRight, BitVec.getLsbD_shiftLeft]
  by_cases h : i + n < 32
  · rw [Nat.mod_eq_of_lt h, Nat.add_comm n i]
    simp [show i < 32 - n by omega]
  · rw [show (i + n) % 32 = i - (32 - n) by omega, BitVec.getLsbD_of_ge x (n + i) (by omega)]
    simp [hi, show ¬ i < 32 - n by omega]

/-- Settles O28. -/
theorem rotationAndShiftBitByBit : Obligations.RotationAndShiftBitByBit :=
  fun x n i hi => ⟨fun _ hn => rotr_getLsbD x hn hi, shr_getLsbD x n i, shr_toNat x n⟩

/-! ### HASH leaves the digest of the message in DIG (44_sequencer_finalizer.md rules R174, R175) -/

/-- The padded message of an admitted length fits every 64-bit length register. -/
theorem paddedLength_lt {c : Config} {L : Nat} (hwf : c.wf = true) (hL : L ≤ c.msgCap) : paddedLength L < 2 ^ 64 := by
  have hcap : c.msgCap ≤ 2 ^ 61 - 1 := by simpa [Config.wf] using hwf
  rw [paddedLength_eq]
  omega

theorem padEffect_PLEN_toNat {s : State} (h : paddedLength s.LEN.toNat < 2 ^ 64) :
    (padEffect s).PLEN.toNat = paddedLength s.LEN.toNat := by
  rw [padEffect_PLEN, BitVec.toNat_ofNat, Nat.mod_eq_of_lt h]

/-- After PAD the argument of TOWORDS is the padded message. -/
theorem paddedBytes_padEffect {s : State} (h : paddedLength s.LEN.toNat < 2 ^ 64) :
    (padEffect s).paddedBytes = pad s.message := by
  have hlen : (padEffect s).paddedBytes.length = (pad s.message).length := by
    rw [paddedBytes_length, padEffect_PLEN_toNat h, pad_length, message_length]
  apply List.ext_getElem?
  intro i
  by_cases hi : i < (pad s.message).length
  · have hp : Memory.content (padEffect s).PMB i = some ((pad s.message).getD i 0) := by
      rw [padEffect_PMB, if_pos (by simpa using hi), getElem?_eq_getD _ _ hi]
    rw [paddedBytes_getElem? _ _ (by rw [← paddedBytes_length, hlen]; exact hi), readPmb_of hp,
      getElem?_eq_getD _ _ hi]
  · rw [List.getElem?_eq_none (by omega), List.getElem?_eq_none (by omega)]

/-- The words HASH compresses: those of the padded message. -/
def State.hashWords (s : State) : List Word := groupWords (pad s.message)

/-- The state of HASH before its block loop: after INIT, PAD and TOWORDS. -/
def hashReady (s : State) : State := toWordsEffect (padEffect (initEffect s))

/-- The state of HASH after its block loop. -/
def hashLooped (s : State) : State := compressBlocks ((hashReady s).WLEN.toNat / 16) (hashReady s)

theorem hashEffect_eq (s : State) : hashEffect s = digestEffect (hashLooped s) := rfl

/-- A padded message is a whole number of blocks, at least one. -/
theorem hashWords_length (s : State) : s.hashWords.length = 16 * ((s.LEN.toNat + 72) / 64) := by
  rw [State.hashWords, groupWords_length, pad_length, message_length, paddedLength_eq]
  omega

theorem hashReady_H (s : State) : HoldsHash (hashReady s) (foldBlocks s.hashWords 0) :=
  fun i _ => initEffect_H s i

theorem hashReady_BP (s : State) : (hashReady s).BP.toNat = 0 := rfl

theorem hashReady_WLEN {s : State} (h : paddedLength s.LEN.toNat < 2 ^ 64) :
    (hashReady s).WLEN.toNat = s.hashWords.length := by
  have hp : (padEffect (initEffect s)).PLEN.toNat = paddedLength s.LEN.toNat := padEffect_PLEN_toNat h
  rw [hashReady, toWordsEffect_WLEN, hp, BitVec.toNat_ofNat, State.hashWords, groupWords_length, pad_length,
    message_length, Nat.mod_eq_of_lt (by omega)]

theorem hashReady_WSEQ {s : State} (h : paddedLength s.LEN.toNat < 2 ^ 64) (i : Nat) (hi : i < s.hashWords.length) :
    Memory.content (hashReady s).WSEQ i = s.hashWords[i]? := by
  have hb : (padEffect (initEffect s)).paddedBytes = pad s.message := paddedBytes_padEffect h
  rw [State.hashWords, groupWords_length, ← hb, paddedBytes_length] at hi
  rw [hashReady, toWordsEffect_WSEQ, if_pos hi, hb, State.hashWords]

/-- The block loop of HASH takes every block: the running state, the block pointer and the counters it leaves. -/
theorem hashLooped_fold {s : State} (h : paddedLength s.LEN.toNat < 2 ^ 64) :
    HoldsHash (hashLooped s) (foldBlocks s.hashWords (s.hashWords.length / 16)) ∧
    (hashLooped s).BP.toNat = s.hashWords.length / 16 ∧ (hashLooped s).TS = 64 ∧ (hashLooped s).TR = 64 ∧
    HoldsLastBlock (hashLooped s) s.hashWords (s.hashWords.length / 16 - 1) := by
  have hlen := hashWords_length s
  obtain ⟨hH, hBP, hlast⟩ := compressBlocks_fold s.hashWords (s.hashWords.length / 16) (hashReady s) 0
    (hashReady_H s) (hashReady_BP s) (hashReady_WLEN h) (by omega) (hashReady_WSEQ h)
  rw [Nat.zero_add] at hH hBP hlast
  rw [hashLooped, hashReady_WLEN h]
  exact ⟨hH, hBP, hlast (by omega)⟩

/-- HASH leaves `hash(MSG[0 .. LEN))` in DIG. -/
theorem hashEffect_DIG {s : State} (h : paddedLength s.LEN.toNat < 2 ^ 64) (j : Nat) :
    RegFile.content (hashEffect s).DIG j = (sha256 s.message)[j]? := by
  obtain ⟨hH, -⟩ := hashLooped_fold h
  rw [hashEffect_eq, digestEffect_DIG, hH.running (foldBlocks_length _ _)]
  rfl

/-- HASH of a message within the capacity answers its effect. -/
theorem exec_hash_of_le {s : State} (h : s.LEN.toNat ≤ s.cfg.msgCap) : exec .hash s = respondOk (hashEffect s) := by
  rw [exec_eq, errorOf, if_neg (by omega)]
  rfl

theorem exec_hash_DIG {s t : State} (hwf : s.cfg.wf = true) (hlen : s.LEN.toNat ≤ s.cfg.msgCap)
    (h : exec .hash s = .next t) (j : Nat) : RegFile.content t.DIG j = (sha256 s.message)[j]? := by
  rw [exec_hash_of_le hlen, respondOk_eq] at h
  cases h
  exact hashEffect_DIG (paddedLength_lt hwf hlen) j

/-- Two states with the same length and the same written message bytes hold the same message, whatever their draws. -/
theorem message_congr {s s' : State} (hlen : s'.LEN = s.LEN)
    (hmsg : ∀ i, i < s.LEN.toNat → (Memory.content s.MSG i).isSome = true ∧
      Memory.content s'.MSG i = Memory.content s.MSG i) : s'.message = s.message := by
  rw [State.message, State.message, hlen]
  refine List.map_congr_left fun i hi => ?_
  obtain ⟨hsome, heq⟩ := hmsg i (List.mem_range.1 hi)
  exact readMsg_of (heq.trans (content_MSG_of_isSome hsome))

/-- Settles O49: the digest is `sha256` of the message, and the two engines hold the same message. -/
theorem hashDependsOnTheMessageOnly : Obligations.HashDependsOnTheMessageOnly := by
  intro s s' t t' hwf hwf' hcap hcap' hlen hmsg ht ht' j hj
  have hD := exec_hash_DIG hwf hcap ht j
  have hD' := exec_hash_DIG hwf' hcap' ht' j
  rw [message_congr hlen hmsg] at hD'
  refine ⟨?_, hD'.trans hD.symm⟩
  rw [hD, List.getElem?_eq_getElem (by rw [sha256_length]; exact hj)]
  rfl

end Sys2Proof.Machine
end

section
/-! SUPPORT. The invariants of 10_state.md rule R41 and the form of the memories: each effect, each host transaction and
so each step keeps them, from every state that meets them. -/

namespace Sys2Proof.Machine

/-! ### The effects of the commands -/

theorem initEffect_inv {s : State} (h : s.Inv) : (initEffect s).Inv := { h with }

theorem digestEffect_inv {s : State} (h : s.Inv) : (digestEffect s).Inv := { h with }

/-- A message within the capacity is padded within the capacity of PMB (00_scope.md rule R6). -/
theorem padEffect_inv {s : State} (h : s.Inv) (hlen : s.LEN.toNat ≤ s.cfg.msgCap) : (padEffect s).Inv where
  __ := h
  pmb_wf := Memory.wf_writeMany _ _ _ h.pmb_wf
  pmb_below := Memory.below_writeMany _ _ _ _ (by
    rw [pad_length, message_length, padEffect_cfg, pmbCap_eq, Nat.zero_add]
    exact paddedLength_mono hlen) h.pmb_below

theorem padEffect_PLEN_le {s : State} (hlen : s.LEN.toNat ≤ s.cfg.msgCap) :
    (padEffect s).PLEN.toNat ≤ pmbCap s.cfg := by
  rw [padEffect_PLEN, BitVec.toNat_ofNat, pmbCap_eq]
  exact (Nat.mod_le _ _).trans (paddedLength_mono hlen)

theorem toWordsEffect_inv {s : State} (h : s.Inv) (hlen : s.PLEN.toNat ≤ pmbCap s.cfg) : (toWordsEffect s).Inv where
  __ := h
  wseq_wf := Memory.wf_writeMany _ _ _ h.wseq_wf
  wseq_below := Memory.below_writeMany _ _ _ _ (by
    rw [groupWords_length, paddedBytes_length, toWordsEffect_cfg, wseqCap, Nat.zero_add]
    exact Nat.div_le_div_right hlen) h.wseq_below

theorem toBytesEffect_inv {s : State} (h : s.Inv) (hlen : s.WLEN.toNat ≤ wseqCap s.cfg) : (toBytesEffect s).Inv where
  __ := h
  pmb_wf := Memory.wf_writeMany _ _ _ h.pmb_wf
  pmb_below := Memory.below_writeMany _ _ _ _ (by
    rw [toBytes_length, wordSeq_length, toBytesEffect_cfg]
    rw [wseqCap] at hlen
    omega) h.pmb_below

theorem scheduleFrom_inv (lo : Nat) {s : State} (h : s.Inv) : (scheduleFrom lo s).Inv := by
  rw [scheduleFrom_frame]
  exact { h with }

theorem roundsFrom_inv (lo : Nat) {s : State} (h : s.Inv) : (roundsFrom lo s).Inv := by
  rw [roundsFrom_frame]
  exact { h with }

/-- The registers COMPRESS computes are no part of the invariant, so its effect is generalized over them. -/
theorem compressEffect_inv {s : State} (h : s.Inv) : (compressEffect s).Inv := by
  rw [compressEffect_frame]
  generalize compressEffect s = x
  exact { h with ts_ge := by simp, ts_le := by simp, tr_le := by simp }

theorem compressBlocks_inv (n : Nat) {s : State} (h : s.Inv) : (compressBlocks n s).Inv := by
  induction n generalizing s with
  | zero => exact h
  | succ n ih =>
    rw [compressBlocks]
    split
    · exact ih (compressEffect_inv h)
    · exact h

theorem hashEffect_inv {s : State} (h : s.Inv) (hlen : s.LEN.toNat ≤ s.cfg.msgCap) : (hashEffect s).Inv := by
  have hpad : (padEffect (initEffect s)).Inv := padEffect_inv (initEffect_inv h) hlen
  have hready : (hashReady s).Inv := toWordsEffect_inv hpad (padEffect_PLEN_le hlen)
  rw [hashEffect_eq]
  exact digestEffect_inv (compressBlocks_inv _ hready)

/-- Where SCHED raises no error, TS is below 64, so the counter does not wrap. -/
theorem sched_TS_of_ok {s : State} (h : s.Inv) (hok : errorOf .sched s = none) :
    s.TS.toNat < 64 ∧ (effectOf .sched s).TS.toNat = s.TS.toNat + 1 := by
  have hle := h.ts_le
  have hne : s.TS.toNat ≠ 64 := by
    intro h64
    have hTS : s.TS = 64 := BitVec.eq_of_toNat_eq h64
    simp [errorOf, hTS] at hok
  refine ⟨by omega, ?_⟩
  simp only [effectOf, BitVec.toNat_ofNat]
  omega

/-- A command whose check passes keeps the invariant: its check bounds what it writes and the counter it moves. -/
theorem effectOf_inv {i : Instr} {s : State} (h : s.Inv) (hok : errorOf i s = none) : (effectOf i s).Inv := by
  cases i with
  | init => exact initEffect_inv h
  | pad => exact padEffect_inv h (by simpa [errorOf] using hok)
  | towords =>
    have hlen : s.PLEN.toNat ≤ pmbCap s.cfg := by
      by_contra hgt
      simp [errorOf, Nat.lt_of_not_le hgt] at hok
    exact toWordsEffect_inv h hlen
  | tobytes => exact toBytesEffect_inv h (by simpa [errorOf] using hok)
  | loadblk => exact { h with ts_ge := by simp [effectOf], ts_le := by simp [effectOf] }
  | sched =>
    obtain ⟨hlt, hnext⟩ := sched_TS_of_ok h hok
    have hge := h.ts_ge
    exact { h with ts_ge := by rw [hnext]; omega, ts_le := by rw [hnext]; omega }
  | expand => exact { scheduleFrom_inv _ h with ts_ge := by simp [effectOf], ts_le := by simp [effectOf] }
  | loadv => exact { h with tr_le := by simp [effectOf] }
  | round =>
    have hTR : s.TR ≠ 64 ∧ s.TR.toNat < s.TS.toNat := by simpa [errorOf] using hok
    have hle := h.ts_le
    exact { h with tr_le := by simp [effectOf]; omega }
  | rounds => exact { roundsFrom_inv _ h with tr_le := by simp [effectOf] }
  | addback => exact { h with }
  | compress => exact compressEffect_inv h
  | digest => exact digestEffect_inv h
  | hash => exact hashEffect_inv h (by simpa [errorOf] using hok)

/-! ### Errors, host writes and steps -/

/-- ERR records a cause code, 1 to 6, and nothing in its reserved field. -/
theorem recordError_fields {e : Word} (hres : errReserved e = 0) (hcause : (errCause e).toNat ≤ 6) (c : Cause)
    (op : Byte) : errReserved (recordError e c op) = 0 ∧ (errCause (recordError e c op)).toNat ≤ 6 := by
  by_cases he : e = 0
  · rw [he, recordError_zero, errWord_reserved, errWord_cause]
    exact ⟨rfl, by cases c <;> decide⟩
  · rw [recordError_of_ne he]
    exact ⟨hres, hcause⟩

theorem State.Inv.recordError {s : State} (h : s.Inv) (c : Cause) (op : Byte) (r : Option Response) :
    State.Inv { s with ERR := recordError s.ERR c op, response := r } := by
  obtain ⟨hres, hcause⟩ := recordError_fields h.err_reserved h.err_cause c op
  exact { h with err_reserved := hres, err_cause := hcause }

theorem exec_keeps_inv {i : Instr} {s t : State} (h : s.Inv) (hst : exec i s = .next t) : t.Inv := by
  rcases exec_cases hst with ⟨c, -, rfl⟩ | ⟨hok, rfl⟩
  · exact h.recordError c (opcode i) _
  · exact { effectOf_inv h hok with }

/-- A write to a cell inside its space keeps the invariant (20_memory.md rule R63). -/
theorem cellWrite_inv {s : State} {sp : Space} {off : Nat} (h : s.Inv) (hoff : off < cellCount s.cfg sp) (d : Nat) :
    (cellWrite s sp off d).Inv := by
  cases sp with
  | csr =>
    rw [cellWrite]
    unfold csrWrite
    split
    · exact { h with err_reserved := by simp [errReserved], err_cause := by simp [errCause] }
    all_goals exact { h with }
  | h => exact { h with }
  | v => exact h
  | w => exact h
  | dig => exact h
  | msg =>
    exact { h with
      msg_wf := Memory.wf_write _ _ _ h.msg_wf
      msg_below := Memory.below_write _ _ _ _ hoff h.msg_below }
  | pmb =>
    exact { h with
      pmb_wf := Memory.wf_write _ _ _ h.pmb_wf
      pmb_below := Memory.below_write _ _ _ _ hoff h.pmb_below }
  | wseq =>
    exact { h with
      wseq_wf := Memory.wf_write _ _ _ h.wseq_wf
      wseq_below := Memory.below_write _ _ _ _ hoff h.wseq_below }

theorem transact_keeps_inv {tx : Txn} {s t : State} (h : s.Inv) (hst : transact tx s = .next t) : t.Inv := by
  rcases transact_cases hst with ⟨c, op, rfl, -⟩ | ⟨r, rfl, -⟩ | ⟨i, hi⟩ |
    ⟨sp, space, off, width, data, -, hadm, -, -, rfl⟩
  · exact h.recordError c op _
  · exact { h with }
  · exact exec_keeps_inv h hi
  · obtain ⟨-, hoff, -⟩ := admitted_eq_some.1 hadm
    exact { cellWrite_inv h hoff data with }

/-- Settles O11: reset gives the reset state's invariant, and every transaction keeps it. -/
theorem everyStepKeepsTheInvariant : Obligations.EveryStepKeepsTheInvariant := by
  intro s t h hst
  rcases step_cases hst with ⟨-, rfl⟩ | ⟨rest, -, rfl⟩ | ⟨tx, rest, -, -, ht⟩
  · exact h
  · exact { resetWith_inv h.cfg_wf with }
  · exact transact_keeps_inv (s := { s with pending := rest }) { h with } ht

end Sys2Proof.Machine
end

section
/-! SUPPORT. What is loaded (10_state.md rules R29 and R30): while schedule words remain, W[0 .. TS) is written; while
rounds remain, V is. Each command and so each step keeps that. -/

namespace Sys2Proof.Machine

/-- What is loaded depends on the counters, W and V only. -/
theorem State.Loaded.congr {s t : State} (h : s.Loaded) (hTS : t.TS = s.TS) (hTR : t.TR = s.TR) (hV : t.V = s.V)
    (hW : t.W = s.W) : t.Loaded where
  schedule := by rw [hTS, hW]; exact h.schedule
  working := by rw [hTR, hV]; exact h.working

/-- With both counters at 64 no word and no round is due. -/
theorem loaded_of_counters {s : State} (hTS : s.TS = 64) (hTR : s.TR = 64) : s.Loaded where
  schedule := fun h => absurd h (by simp [hTS])
  working := fun h => absurd h (by simp [hTR])

/-! ### The register files the commands load -/

theorem takeBlock_W_written (s : State) {i : Nat} (hi : i < 16) :
    (RegFile.content (takeBlock s).W i).isSome = true := by
  rw [takeBlock_W, if_pos hi]
  rfl

/-- A schedule step at `t` writes W[t] and leaves the registers below written. -/
theorem scheduleStep_W_written {s : State} {t : Nat} (ht : t < 64)
    (hW : ∀ i, i < t → (RegFile.content s.W i).isSome = true) {i : Nat} (hi : i < t + 1) :
    (RegFile.content (scheduleStep s t).W i).isSome = true := by
  rw [scheduleStep_W s t i ht]
  by_cases hit : i = t
  · rw [if_pos hit]
    rfl
  · rw [if_neg hit]
    exact hW i (by omega)

theorem loadWorking_V_written (s : State) {i : Nat} (hi : i < 8) :
    (RegFile.content (loadWorking s).V i).isSome = true := by
  rw [loadWorking_V s i hi]
  rfl

theorem roundStep_V_written (s : State) (t : Nat) {i : Nat} (hi : i < 8) :
    (RegFile.content (roundStep s t).V i).isSome = true := by
  rw [roundStep_V, getElem?_eq_getD _ _ (by simpa using hi)]
  rfl

/-! ### The commands -/

theorem compressBlocks_loaded (n : Nat) {s : State} (h : s.Loaded) : (compressBlocks n s).Loaded := by
  induction n generalizing s with
  | zero => exact h
  | succ n ih =>
    rw [compressBlocks]
    split
    · exact ih (loaded_of_counters (compressEffect_TS s) (compressEffect_TR s))
    · exact h

theorem hashEffect_loaded {s : State} (h : s.Loaded) : (hashEffect s).Loaded := by
  have hready : (hashReady s).Loaded := h.congr rfl rfl rfl rfl
  have hloop : (hashLooped s).Loaded := compressBlocks_loaded _ hready
  rw [hashEffect_eq]
  exact hloop.congr rfl rfl rfl rfl

/-- A command whose check passes keeps what is loaded: LOADBLK, SCHED, LOADV and ROUND write what their counter then
promises, and the commands that finish a schedule or the rounds promise nothing more of it. -/
theorem effectOf_loaded {i : Instr} {s : State} (hinv : s.Inv) (h : s.Loaded) (hok : errorOf i s = none) :
    (effectOf i s).Loaded := by
  cases i with
  | init | pad | towords | tobytes | addback | digest => exact h.congr rfl rfl rfl rfl
  | loadblk => exact ⟨fun _ i hi => takeBlock_W_written s hi, h.working⟩
  | sched =>
    obtain ⟨hlt, hnext⟩ := sched_TS_of_ok hinv hok
    refine ⟨fun _ i hi => ?_, h.working⟩
    rw [hnext] at hi
    exact scheduleStep_W_written hlt (h.schedule hlt) hi
  | expand =>
    have hV : (effectOf .expand s).V = s.V := scheduleFrom_V _ s
    have hTR : (effectOf .expand s).TR = s.TR := scheduleFrom_TR _ s
    exact ⟨fun hlt => absurd hlt (by simp [effectOf]), by rw [hV, hTR]; exact h.working⟩
  | loadv => exact ⟨h.schedule, fun _ i hi => loadWorking_V_written s hi⟩
  | round => exact ⟨h.schedule, fun _ i hi => roundStep_V_written s _ hi⟩
  | rounds =>
    have hW : (effectOf .rounds s).W = s.W := roundsFrom_W _ s
    have hTS : (effectOf .rounds s).TS = s.TS := roundsFrom_TS _ s
    exact ⟨by rw [hW, hTS]; exact h.schedule, fun hlt => absurd hlt (by simp [effectOf])⟩
  | compress => exact loaded_of_counters (compressEffect_TS s) (compressEffect_TR s)
  | hash => exact hashEffect_loaded h

theorem exec_keeps_loaded {i : Instr} {s t : State} (hinv : s.Inv) (h : s.Loaded) (hst : exec i s = .next t) :
    t.Loaded := by
  rcases exec_cases hst with ⟨c, -, rfl⟩ | ⟨hok, rfl⟩
  · exact h.congr rfl rfl rfl rfl
  · exact (effectOf_loaded hinv h hok).congr rfl rfl rfl rfl

/-! ### Transactions and steps -/

theorem transact_keeps_loaded {tx : Txn} {s t : State} (hinv : s.Inv) (h : s.Loaded) (hst : transact tx s = .next t) :
    t.Loaded := by
  rcases transact_cases hst with ⟨c, op, rfl, -⟩ | ⟨r, rfl, -⟩ | ⟨i, hi⟩ |
    ⟨sp, space, off, width, data, -, -, -, -, rfl⟩
  · exact h.congr rfl rfl rfl rfl
  · exact h.congr rfl rfl rfl rfl
  · exact exec_keeps_loaded hinv h hi
  · obtain ⟨-, -, hTS, hTR, hV, hW, -⟩ := cellWrite_keep s sp off data
    exact h.congr hTS hTR hV hW

/-- Settles O12: after the reset event nothing is due, and every transaction keeps what is loaded. -/
theorem everyStepKeepsWhatIsLoaded : Obligations.EveryStepKeepsWhatIsLoaded := by
  intro s t hinv h hst
  rcases step_cases hst with ⟨-, rfl⟩ | ⟨rest, -, rfl⟩ | ⟨tx, rest, -, -, ht⟩
  · exact h
  · exact loaded_of_counters rfl rfl
  · exact transact_keeps_loaded (s := { s with pending := rest }) { hinv with } (h.congr rfl rfl rfl rfl) ht

end Sys2Proof.Machine
end

section
/-! SUPPORT. The rest of the state's statements: the parameter and the queue, the reset event, what a host read answers
(20_memory.md rule R62, 10_state.md rules R38 and R43), and the access matrix (10_state.md rule R44). -/

open Sys2Proof.Claims

namespace Sys2Proof.Machine

/-- Settles O9. -/
theorem stepsKeepTheParameterAndTakeOneEvent : Obligations.StepsKeepTheParameterAndTakeOneEvent :=
  fun _ _ => step_keeps_cfg_takes_event

/-- Settles O6: the reset event gives `takeReset`, and both states have the fields of 10_state.md rule R42. -/
theorem resetEventGivesTheResetState : Obligations.ResetEventGivesTheResetState := by
  refine ⟨fun s rest hp => ⟨takeReset { s with pending := rest }, step_reset hp, ?_⟩, ?_⟩
  · simp
  · simp

/-! ### The cells of the spaces -/

/-- The number of a space (20_memory.md rule R60). -/
def spaceNumber : Space → Nat
  | .csr => 0
  | .h => 1
  | .v => 2
  | .w => 3
  | .dig => 4
  | .msg => 5
  | .pmb => 6
  | .wseq => 7

theorem spaceOf_spaceNumber (sp : Space) : spaceOf (spaceNumber sp) = some sp := by
  cases sp <;> rfl

/-- The row of a space in the table of rule R60 gives the model's cell width and number of cells. -/
theorem spaceTable_spaceNumber (c : Config) (sp : Space) :
    (spaceTable c)[spaceNumber sp]? = some (cellWidth sp, cellCount c sp) := by
  cases sp <;> rfl

/-- Every row of the table is the row of a space. -/
theorem exists_space_of_spaceTable {c : Config} {space width n : Nat} (h : (spaceTable c)[space]? = some (width, n)) :
    ∃ sp, space = spaceNumber sp ∧ width = cellWidth sp ∧ n = cellCount c sp := by
  have hsp : ∃ sp, space = spaceNumber sp := by
    have hlt : space < 8 := (List.getElem?_eq_some_iff.1 h).1
    interval_cases space
    exacts [⟨.csr, rfl⟩, ⟨.h, rfl⟩, ⟨.v, rfl⟩, ⟨.w, rfl⟩, ⟨.dig, rfl⟩, ⟨.msg, rfl⟩, ⟨.pmb, rfl⟩, ⟨.wseq, rfl⟩]
  obtain ⟨sp, rfl⟩ := hsp
  rw [spaceTable_spaceNumber] at h
  cases h
  exact ⟨sp, rfl, rfl, rfl⟩

/-! ### What a host read answers -/

/-- The layout of the CSR space (10_state.md rule R38) and the model's read agree. -/
theorem csrCells_getElem? (s : State) {off : Nat} (h : off < 12) : (csrCells s)[off]? = some (csrRead s off) := by
  interval_cases off <;> rfl

/-- The response of a read of an unspecified cell: a free draw of the cell's width (10_state.md rule R43). -/
def freeResponse (draw width space off : Nat) : Response :=
  if width = 8 then .ok8 (Config.freeByte draw space off) else .ok32 (Config.freeWord draw space off)

/-- A cell reads as what it holds, and as a free draw where it holds nothing. -/
theorem cellRead_eq_getD (s : State) (sp : Space) {off : Nat} (h : off < cellCount s.cfg sp) :
    cellRead s sp off =
      (cellContent s (spaceNumber sp) off).getD (freeResponse s.draws (cellWidth sp) (spaceNumber sp) off) := by
  cases sp with
  | csr =>
    rw [spaceNumber, cellContent, csrCells_getElem? s h]
    rfl
  | h | v | w | dig | msg | pmb | wseq => exact (Option.getD_map _ _ _).symm

/-- An admitted read answers the cell and changes nothing but the response and the draw counter. -/
theorem transact_read {s : State} {space off width n : Nat} (hrow : (spaceTable s.cfg)[space]? = some (width, n))
    (hoff : off < n) :
    transact (.read space off width) s =
      .next { s with
        response := some ((cellContent s space off).getD (freeResponse s.draws width space off))
        draws := s.draws + 1 } := by
  obtain ⟨sp, rfl, rfl, rfl⟩ := exists_space_of_spaceTable hrow
  have hadm : admitted s.cfg (spaceNumber sp) off (cellWidth sp) = some sp :=
    admitted_eq_some.2 ⟨spaceOf_spaceNumber sp, hoff, rfl⟩
  rw [transact, busRead, hadm, ← cellRead_eq_getD s sp hoff]
  rfl

/-- Settles O19. -/
theorem readReturnsWhatTheCellHolds : Obligations.ReadReturnsWhatTheCellHolds := by
  intro s space off width n r hrow hoff hcell
  rw [transact_read hrow hoff, hcell, Option.getD_some]

/-- Settles O20. -/
theorem readOfUnwrittenCellIsAFreeDraw : Obligations.ReadOfUnwrittenCellIsAFreeDraw := by
  intro s space off width n hrow hoff hcell
  rw [transact_read hrow hoff, hcell, Option.getD_none, freeResponse]

/-! ### The access matrix -/

/-- ERR and the response are no pieces of the matrix, so an error leaves every piece. -/
theorem samePiece_recordError (s : State) (e : Word) (r : Option Response) (p : Piece) :
    samePiece s { s with ERR := e, response := r } p := by
  cases p <;> rfl

theorem samePiece_respond {s t : State} {p : Piece} (h : samePiece s t p) (r : Option Response) :
    samePiece s { t with response := r } p := by
  cases p <;> exact h

/-- The effect of a command leaves every piece without a `w` in its row. A single effect replaces the pieces of its row
and no other; of the loops and the composed commands, the field lemmas of Laws/Loops say what they leave. -/
theorem effectOf_samePiece {i : Instr} {p : Piece} (hp : p ∉ written i) (s : State) : samePiece s (effectOf i s) p := by
  cases i with
  | init | pad | towords | tobytes | loadblk | sched | loadv | round | addback | digest =>
    cases p <;> simp [written] at hp <;> rfl
  | expand | rounds | compress | hash =>
    cases p <;> simp [written] at hp <;> simp [samePiece, effectOf]

/-- Settles O23: an error writes no piece, and an effect only those of its row. -/
theorem commandsWriteOnlyTheirPieces : Obligations.CommandsWriteOnlyTheirPieces := by
  intro i s t h
  refine ⟨fun p hp => ?_, exec_keeps_cfg_pending h⟩
  rcases exec_cases h with ⟨c, -, rfl⟩ | ⟨-, rfl⟩
  · exact samePiece_recordError s _ _ p
  · exact samePiece_respond (effectOf_samePiece hp s) _

end Sys2Proof.Machine
end

section
/-! SUPPORT. What a host write leaves in the cells (20_memory.md rules R63, R68 and R69): the cell written holds the data,
every other cell of every space what it held, and a read then answers the data. -/

open Sys2Proof.Claims

namespace Sys2Proof.Machine

/-! ### Admitted writes -/

theorem spaceOf_eq_some {space : Nat} {sp : Space} (h : spaceOf space = some sp) : space = spaceNumber sp := by
  have hlt : space < 8 := spaceOf_lt h
  interval_cases space <;> cases h <;> rfl

/-- A write that passes every check, to a cell other than CMD, is the write of that cell. -/
theorem transact_write {s : State} {sp : Space} {space off width : Nat}
    (hadm : admitted s.cfg space off width = some sp) (hw : cellWritable sp off = true)
    (hcmd : ¬ (sp = .csr ∧ off = 0)) (d : Nat) :
    transact (.write space off width d) s = .next { cellWrite s sp off d with response := some .ok } := by
  rw [transact, busWrite, hadm]
  simp [hw, hcmd, respondOk_eq]

/-- What 60_exceptions.md rule R197 does not refuse is writable: of the CSR cells only TS and TR are not. -/
theorem cellWritable_of_not_busRefused {c : Config} {sp : Space} {off width d : Nat} (hoff : off < cellCount c sp)
    (h : ¬ busRefused c (.write (spaceNumber sp) off width d)) : cellWritable sp off = true := by
  simp only [busRefused, not_or] at h
  obtain ⟨-, hv, hw, hdig, hcounter⟩ := h
  cases sp with
  | csr =>
    have hlt : off < 12 := hoff
    have hne : ¬ (off = 10 ∨ off = 11) := fun hc => hcounter ⟨rfl, hc⟩
    rw [cellWritable, decide_eq_true_eq]
    omega
  | v => exact absurd rfl hv
  | w => exact absurd rfl hw
  | dig => exact absurd rfl hdig
  | h | msg | pmb | wseq => rfl

/-- A write answered OK, to a cell other than CMD and ERR, passed every check and wrote the cell. -/
theorem cellWrite_of_transact_write_ok {s t : State} {space off width d : Nat} (hplain : ¬ (space = 0 ∧ off ≤ 1))
    (ht : transact (.write space off width d) s = .next t) (hok : t.response = some .ok) :
    ∃ sp, admitted s.cfg space off width = some sp ∧ cellWritable sp off = true ∧
      t = { cellWrite s sp off d with response := some .ok } := by
  rw [transact] at ht
  rcases busWrite_cases space off width d s with ⟨-, hbus⟩ | ⟨hadm, hoff, -⟩ | ⟨sp, hadm, hw, -, hbus⟩
  · rw [hbus, raise_eq] at ht
    cases ht
    cases hok
  · obtain ⟨hsp, -⟩ := admitted_eq_some.1 hadm
    exact absurd ⟨spaceOf_eq_some hsp, by omega⟩ hplain
  · rw [hbus] at ht
    cases ht
    exact ⟨sp, hadm, hw, rfl⟩

/-- Settles O17: the write is admitted, and the CSR cell it goes to is ERR. -/
theorem writeToErrClearsIt : Obligations.WriteToErrClearsIt :=
  fun _ d => transact_write (sp := .csr) rfl rfl (by decide) d

/-! ### The cells after a write -/

/-- The layout of the CSR space with each register as its two halves (10_state.md rule R38). -/
theorem csrCells_eq (s : State) :
    csrCells s = [0, s.ERR, low32 s.LEN, high32 s.LEN, low32 s.PLEN, high32 s.PLEN, low32 s.WLEN, high32 s.WLEN,
      low32 s.BP, high32 s.BP, s.TS.setWidth 32, s.TR.setWidth 32] := rfl

/-- A write to one half of a length register or of BP replaces that cell of the CSR space and no other. -/
theorem csrCells_csrWrite (s : State) (v : Word) {off : Nat} (hge : 2 ≤ off) (hlt : off < 10) :
    csrCells (csrWrite s v off) = (csrCells s).set off v := by
  interval_cases off <;> simp [csrCells_eq, csrWrite]

/-- A CSR write changes CSR registers only. -/
theorem csrWrite_frame (s : State) (v : Word) (off : Nat) :
    csrWrite s v off =
      { s with
        ERR := (csrWrite s v off).ERR
        LEN := (csrWrite s v off).LEN
        PLEN := (csrWrite s v off).PLEN
        WLEN := (csrWrite s v off).WLEN
        BP := (csrWrite s v off).BP } := by
  unfold csrWrite
  split <;> rfl

/-- A write leaves the cells of every other space: `h` shuts out the one space whose field the write replaces. -/
theorem cellContent_cellWrite_of_ne {sp : Space} {space' : Nat} (h : space' ≠ spaceNumber sp) (s : State)
    (off d off' : Nat) : cellContent (cellWrite s sp off d) space' off' = cellContent s space' off' := by
  cases sp with
  | v | w | dig => rfl
  | csr =>
    rw [cellWrite, csrWrite_frame]
    unfold cellContent
    split <;> simp [spaceNumber] at h <;> rfl
  | h | msg | pmb | wseq =>
    unfold cellContent
    split <;> simp [spaceNumber] at h <;> rfl

/-- In its own space a write to a plain cell changes that cell only, which then holds the data. -/
theorem cellContent_cellWrite_self {s : State} {sp : Space} {off : Nat} (hoff : off < cellCount s.cfg sp)
    (hw : cellWritable sp off = true) (hplain : ¬ (spaceNumber sp = 0 ∧ off ≤ 1)) (d off' : Nat) :
    cellContent (cellWrite s sp off d) (spaceNumber sp) off' =
      if off' = off then some (dataResponse (cellWidth sp) d) else cellContent s (spaceNumber sp) off' := by
  cases sp with
  | csr =>
    have hlt : off < 10 := by simpa [cellWritable] using hw
    have hge : 2 ≤ off := by simp only [spaceNumber, true_and] at hplain; omega
    have hlen : off < (csrCells s).length := hoff
    rw [spaceNumber, cellContent, cellWrite, csrCells_csrWrite _ _ hge hlt,
      List.getElem?_set, if_pos hlen, apply_ite (Option.map _)]
    simp only [eq_comm (a := off)]
    rfl
  | h =>
    have hlt : off < 8 := hoff
    rw [spaceNumber, cellContent, cellWrite, RegFile.content_write _ _ _ _ hlt, apply_ite (Option.map _)]
    rfl
  | v | w | dig => cases hw
  | msg | pmb | wseq =>
    rw [spaceNumber, cellContent, cellWrite, Memory.content_write, apply_ite (Option.map _)]
    rfl

/-- The cells after an admitted write to a plain cell (20_memory.md rule R68). -/
theorem cellContent_cellWrite {s : State} {sp : Space} {off : Nat} (hoff : off < cellCount s.cfg sp)
    (hw : cellWritable sp off = true) (hplain : ¬ (spaceNumber sp = 0 ∧ off ≤ 1)) (d space' off' : Nat) :
    cellContent (cellWrite s sp off d) space' off' =
      if space' = spaceNumber sp ∧ off' = off then some (dataResponse (cellWidth sp) d)
      else cellContent s space' off' := by
  by_cases hsp : space' = spaceNumber sp
  · subst hsp
    simp [cellContent_cellWrite_self hoff hw hplain]
  · rw [cellContent_cellWrite_of_ne hsp, if_neg fun hc => hsp hc.1]

/-- The response is no cell of a space. -/
theorem cellContent_response (s : State) (r : Option Response) (space off : Nat) :
    cellContent { s with response := r } space off = cellContent s space off := rfl

/-- Settles O21: the write is admitted and writes its cell, and `cellContent_cellWrite` says what every cell then holds. -/
theorem writeChangesOneCellOnly : Obligations.WriteChangesOneCellOnly := by
  intro s space off width n d hrow hoff _ hbus hplain
  obtain ⟨sp, rfl, rfl, rfl⟩ := exists_space_of_spaceTable hrow
  have hw : cellWritable sp off = true := cellWritable_of_not_busRefused hoff hbus
  have hadm : admitted s.cfg (spaceNumber sp) off (cellWidth sp) = some sp :=
    admitted_eq_some.2 ⟨spaceOf_spaceNumber sp, hoff, rfl⟩
  have hcmd : ¬ (sp = .csr ∧ off = 0) := by
    rintro ⟨rfl, rfl⟩
    exact hplain ⟨rfl, Nat.zero_le _⟩
  obtain ⟨hcfg, hpending, -, -, -, -, -, hdraws, -⟩ := cellWrite_keep s sp off d
  refine ⟨_, transact_write hadm hw hcmd d, rfl, ?_, fun space' off' hne => ?_, hcfg, hpending, hdraws⟩
  · rw [cellContent_response, cellContent_cellWrite hoff hw hplain, if_pos ⟨rfl, rfl⟩]
  · rw [cellContent_response, cellContent_cellWrite hoff hw hplain, if_neg hne]

/-- Settles O22: the write wrote its cell, so the read, admitted in the state it leaves, answers what the cell holds. -/
theorem readAfterWriteReturnsTheValue : Obligations.ReadAfterWriteReturnsTheValue := by
  intro s t space off width d _ hplain ht hok
  obtain ⟨sp, hadm, hw, rfl⟩ := cellWrite_of_transact_write_ok hplain ht hok
  obtain ⟨hsp, hoff, rfl⟩ := admitted_eq_some.1 hadm
  obtain rfl := spaceOf_eq_some hsp
  obtain ⟨hcfg, -⟩ := cellWrite_keep s sp off d
  have hrow := spaceTable_spaceNumber (cellWrite s sp off d).cfg sp
  refine ⟨_, transact_read hrow (by rw [hcfg]; exact hoff), ?_⟩
  rw [cellContent_response, cellContent_cellWrite hoff hw hplain, if_pos ⟨rfl, rfl⟩]
  rfl

end Sys2Proof.Machine
end

section
/-! SUPPORT. The encoding (30_encoding.md): the format of a command word, the opcode map in both directions, and from
them what the decoder answers for every 32-bit value and what the host's write of it to CMD does. -/

namespace Sys2Proof.Machine

/-! ### The command words and the opcode map -/

/-- Every command word is in format C, and the opcode map reads its opcode back (R90, R91). -/
theorem formatC : ∀ i, Laws.FormatC.Statement i
  | .init => Laws.FormatC.init
  | .pad => Laws.FormatC.pad
  | .towords => Laws.FormatC.towords
  | .tobytes => Laws.FormatC.tobytes
  | .loadblk => Laws.FormatC.loadblk
  | .sched => Laws.FormatC.sched
  | .expand => Laws.FormatC.expand
  | .loadv => Laws.FormatC.loadv
  | .round => Laws.FormatC.round
  | .rounds => Laws.FormatC.rounds
  | .addback => Laws.FormatC.addback
  | .compress => Laws.FormatC.compress
  | .digest => Laws.FormatC.digest
  | .hash => Laws.FormatC.hash

@[simp] theorem zeroField_encode (i : Instr) : zeroField (encode i) = 0 := (formatC i).1

@[simp] theorem opField_encode (i : Instr) : opField (encode i) = opcode i := by
  obtain ⟨-, hop, -⟩ := formatC i
  exact hop

theorem opcode_range (i : Instr) : 0x01 ≤ (opcode i).toNat ∧ (opcode i).toNat ≤ 0x0E := by
  obtain ⟨-, -, hge, hle, -⟩ := formatC i
  exact ⟨hge, hle⟩

@[simp] theorem commandOf_opcode (i : Instr) : commandOf (opcode i).toNat = some i := by
  obtain ⟨-, -, -, -, hmap⟩ := formatC i
  exact hmap

/-- The opcode map has exactly one row for each command. -/
theorem commandOf_eq_some {n : Nat} {i : Instr} : commandOf n = some i ↔ n = (opcode i).toNat := by
  constructor
  · unfold commandOf
    split <;> rintro ⟨⟩ <;> rfl
  · rintro rfl
    exact commandOf_opcode i

/-- The opcodes outside the map: 0x00, and those from 0x0F on. -/
theorem commandOf_eq_none {n : Nat} : commandOf n = none ↔ n = 0x00 ∨ n ≥ 0x0F := by
  constructor
  · intro hn
    by_contra hrange
    have hge : 0x01 ≤ n := by omega
    have hle : n ≤ 0x0E := by omega
    interval_cases n <;> cases hn
  · intro hrange
    rw [Option.eq_none_iff_forall_ne_some]
    intro i hi
    have hn := commandOf_eq_some.1 hi
    have hop := opcode_range i
    omega

theorem opcode_injective : Function.Injective opcode := fun i j h => by
  simpa using congrArg (fun op => commandOf op.toNat) h

/-! ### Decoding against encoding -/

/-- A command word is its two fields, `zero` above `op` (R90). -/
theorem zeroField_append_opField (c : Word) : zeroField c ++ opField c = c :=
  (BitVec.extractLsb'_append_extractLsb'_eq_extractLsb' rfl).trans BitVec.extractLsb'_eq_self

theorem encode_eq_iff {c : Word} {i : Instr} : encode i = c ↔ zeroField c = 0 ∧ opField c = opcode i := by
  constructor
  · rintro rfl
    simp
  · rintro ⟨hzero, hop⟩
    rw [← zeroField_append_opField c, hzero, hop, encode]

theorem decode_of_zeroField_ne {c : Word} (h : zeroField c ≠ 0) :
    decode c = .error (.illegalCommand (opField c)) := if_pos h

theorem decode_of_commandOf_none {c : Word} (h : commandOf (opField c).toNat = none) :
    decode c = .error (.illegalCommand (opField c)) := by
  simp [decode, h]

theorem decode_of_commandOf_some {c : Word} {i : Instr} (hzero : zeroField c = 0)
    (h : commandOf (opField c).toNat = some i) : decode c = .ok i := by
  simp [decode, hzero, h]

/-- The decoder answers a command only for a zero `zero` field and that command's opcode (R92). -/
theorem decode_eq_ok {c : Word} {i : Instr} : decode c = .ok i ↔ zeroField c = 0 ∧ opField c = opcode i := by
  constructor
  · intro h
    by_cases hzero : zeroField c = 0
    · cases hop : commandOf (opField c).toNat with
      | none => cases h.symm.trans (decode_of_commandOf_none hop)
      | some j =>
        cases h.symm.trans (decode_of_commandOf_some hzero hop)
        exact ⟨hzero, BitVec.eq_of_toNat_eq (commandOf_eq_some.1 hop)⟩
    · cases h.symm.trans (decode_of_zeroField_ne hzero)
  · rintro ⟨hzero, hop⟩
    exact decode_of_commandOf_some hzero (by rw [hop, commandOf_opcode])

/-- Settles O1: both sides say that the `zero` field is 0 and the `op` field is the opcode of the command. -/
theorem decodeAndEncodeAgree : Obligations.DecodeAndEncodeAgree := fun _ _ => decode_eq_ok.trans encode_eq_iff.symm

/-- Settles O3: each word of the table is the one its command is encoded as, by O1. -/
theorem tableWordsDecodeToTheirCommands : Obligations.TableWordsDecodeToTheirCommands := by
  refine ⟨?_, ?_, ?_, ?_, ?_, ?_, ?_, ?_, ?_, ?_, ?_, ?_, ?_, ?_⟩ <;> exact (decodeAndEncodeAgree _ _).2 rfl

/-! ### The host's write to CMD -/

/-- The CMD write of a value that is no command word raises IllegalCommand. -/
theorem transact_cmd_of_illegal {c : Word} {op : Byte} (h : decode c = .error (.illegalCommand op)) (s : State) :
    transact (cmdWrite c) s = raise .illegalCommand op s := by
  rw [transact_cmd, command_eq, h]

/-- A zero `zero` field and an opcode of the map decode to the one command with that opcode (R92). -/
theorem decode_unique_of_op_range {c : Word} (hzero : zeroField c = 0) (hge : 0x01 ≤ (opField c).toNat)
    (hle : (opField c).toNat ≤ 0x0E) :
    ∃ i, decode c = .ok i ∧ opcode i = opField c ∧ ∀ j, opcode j = opField c → j = i := by
  have hop : commandOf (opField c).toNat ≠ none := fun hnone => by
    have hrange := commandOf_eq_none.1 hnone
    omega
  obtain ⟨i, hi⟩ := Option.ne_none_iff_exists'.1 hop
  have hd : decode c = .ok i := decode_of_commandOf_some hzero hi
  obtain ⟨-, heq⟩ := decode_eq_ok.1 hd
  exact ⟨i, hd, heq.symm, fun j hj => opcode_injective (hj.trans heq)⟩

/-- Settles O2: the write hands its word to the command port, and the decoder's answer is known for each value. -/
theorem everyValueIsACommandOrIllegal : Obligations.EveryValueIsACommandOrIllegal := by
  intro c s
  refine ⟨transact_cmd c s, fun hzero => ?_, fun hop => ?_, fun hzero hge hle => ?_⟩
  · exact transact_cmd_of_illegal (decode_of_zeroField_ne hzero) s
  · exact transact_cmd_of_illegal (decode_of_commandOf_none (commandOf_eq_none.2 hop)) s
  · obtain ⟨i, hd, hi, huniq⟩ := decode_unique_of_op_range hzero hge hle
    exact ⟨i, hd, hi, transact_cmd_of_decode hd s, huniq⟩

end Sys2Proof.Machine
end

section
/-! SUPPORT. The padding processor (40_padding.md): the number of zero bytes, the padded message by its four parts, and
from them the testable properties of `pad` and what PAD stores. -/

namespace Sys2Proof.Machine

/-! ### The number of zero bytes (rule R110) -/

/-- With `zeroFill_le`, this determines the number of zero bytes: the least that completes a block. -/
theorem add_zeroFill (L : Nat) : L + 9 + zeroFill L = 64 * ((L + 72) / 64) := by
  rw [← paddedLength_eq, paddedLength]
  omega

theorem zeroFill_le (L : Nat) : zeroFill L ≤ 63 := Nat.le_of_lt_succ (Nat.mod_lt _ (by decide))

/-- Settles O24: every form follows from the block completed and the bound. -/
theorem zeroFillIsTheDoubleModuloForm : Obligations.ZeroFillIsTheDoubleModuloForm := by
  intro L
  have hsum := add_zeroFill L
  have hle := zeroFill_le L
  refine ⟨rfl, ?_, hle, fun hL => ?_, ?_, hsum⟩ <;> omega

/-! ### The parts of the padded message (rules R111 and R112) -/

/-- `be64(v)` byte by byte, most significant first (00_scope.md rule R14). -/
theorem be64_getElem? (v : BitVec 64) {j : Nat} (hj : j < 8) : (be64 v)[j]? = some (v.extractLsb' (56 - 8 * j) 8) := by
  interval_cases j <;> rfl

/-- The bytes of `be64(v)` are the digits of `v` to the base 256. -/
theorem foldl_be64 (v : BitVec 64) : (be64 v).foldl (fun n b => n * 256 + b.toNat) 0 = v.toNat := by
  have hv : v.toNat < 2 ^ 64 := v.isLt
  simp only [be64, List.foldl, BitVec.extractLsb'_toNat, Nat.shiftRight_eq_div_pow]
  omega

theorem pad_getElem?_message {m : List Byte} {i : Nat} (h : i < m.length) : (pad m)[i]? = m[i]? := by
  rw [pad_getElem?, if_pos h]

theorem pad_getElem?_terminator (m : List Byte) : (pad m)[m.length]? = some 0x80 := by
  rw [pad_getElem?, if_neg (by omega), if_pos rfl]

theorem pad_getElem?_zeroFill {m : List Byte} {i : Nat} (hlo : m.length < i) (hhi : i < paddedLength m.length - 8) :
    (pad m)[i]? = some 0x00 := by
  rw [paddedLength] at hhi
  rw [pad_getElem?, if_neg (by omega), if_neg (by omega), if_pos (by omega)]

theorem take_pad (m : List Byte) : (pad m).take m.length = m := by
  rw [pad, List.append_assoc, List.append_assoc, List.take_left]

/-- The length field is the last eight bytes. -/
theorem drop_pad (m : List Byte) : (pad m).drop (paddedLength m.length - 8) = be64 (BitVec.ofNat 64 (8 * m.length)) := by
  refine List.drop_left' ?_
  simp only [paddedLength, List.length_append, List.length_singleton, List.length_replicate, Nat.add_sub_cancel]

theorem pad_getElem?_lengthField (m : List Byte) {j : Nat} (hj : j < 8) :
    (pad m)[paddedLength m.length - 8 + j]? =
      some ((BitVec.ofNat 64 (8 * m.length)).extractLsb' (56 - 8 * j) 8) := by
  rw [← List.getElem?_drop, drop_pad, be64_getElem? _ hj]

/-- A padded message is a whole number of words (rule R113). -/
theorem toWords_pad (m : List Byte) : toWords (pad m) = some (groupWords (pad m)) := by
  rw [toWords, if_neg]
  rw [pad_length, paddedLength_eq]
  omega

/-- Settles O25: the padded length is a multiple of 64, and each part of the padded message is where its lemma says. -/
theorem padHasItsTestableProperties : Obligations.PadHasItsTestableProperties := by
  intro m
  have hlen : (pad m).length = 64 * ((m.length + 72) / 64) := by rw [pad_length, paddedLength_eq]
  refine ⟨by omega, by omega, pad_getElem?_terminator m, fun i hlo hhi => ?_, fun hm => ?_, take_pad m, by omega,
    groupWords (pad m), toWords_pad m, ?_⟩
  · rw [pad_length] at hhi
    exact pad_getElem?_zeroFill hlo hhi
  · rw [pad_length, drop_pad, foldl_be64, BitVec.toNat_ofNat]
    omega
  · rw [groupWords_length]
    omega

/-! ### The command PAD (rule R114) -/

/-- PAD of a message longer than MSG raises CapacityError. -/
theorem exec_pad_of_gt {s : State} (h : s.LEN.toNat > s.cfg.msgCap) :
    exec .pad s = raise .capacityError 0x02 s := by
  rw [exec_eq, errorOf, if_pos h]
  rfl

/-- PAD of a message within the capacity answers its effect. -/
theorem exec_pad_of_le {s : State} (h : s.LEN.toNat ≤ s.cfg.msgCap) : exec .pad s = respondOk (padEffect s) := by
  rw [exec_eq, errorOf, if_neg (by omega)]
  rfl

/-- The cells of PMB below the padded length hold the padded message. -/
theorem padEffect_PMB_of_lt {s : State} {i : Nat} (h : i < paddedLength s.LEN.toNat) :
    Memory.content (padEffect s).PMB i = (pad s.message)[i]? := by
  rw [padEffect_PMB, if_pos h]

/-- The cells of PMB from the padded length on are as before. -/
theorem padEffect_PMB_of_ge {s : State} {i : Nat} (h : paddedLength s.LEN.toNat ≤ i) :
    Memory.content (padEffect s).PMB i = Memory.content s.PMB i := by
  rw [padEffect_PMB, if_neg (by omega)]

/-- Settles O36: PMB holds the padded message of MSG[0 .. LEN), whose parts are known byte by byte. -/
theorem padStoresThePaddedMessage : Obligations.PadStoresThePaddedMessage := by
  refine ⟨(decodeAndEncodeAgree _ _).2 rfl, fun s h => exec_pad_of_gt h, fun s hwf hle => ?_⟩
  have hP : (padEffect s).PLEN.toNat = paddedLength s.LEN.toNat := padEffect_PLEN_toNat (paddedLength_lt hwf hle)
  have hL : s.LEN.toNat + 9 ≤ paddedLength s.LEN.toNat := by rw [paddedLength]; omega
  have hmsg := message_length s
  refine ⟨(padEffect s).PMB, (padEffect s).PLEN, exec_pad_of_le hle, hP, padEffect_PLEN_le hle, fun i hi => ?_, ?_,
    fun i hlo hhi => ?_, fun j hj => ?_, fun i hi => ?_⟩
  · rw [padEffect_PMB_of_lt (by omega), pad_getElem?_message (by omega), message_getElem? s i hi]
  · rw [padEffect_PMB_of_lt (by omega), ← hmsg, pad_getElem?_terminator]
  · rw [hP] at hhi
    rw [padEffect_PMB_of_lt (by omega), pad_getElem?_zeroFill (by omega) (by rwa [hmsg])]
  · rw [hP, padEffect_PMB_of_lt (by omega), ← hmsg, pad_getElem?_lengthField _ hj]
  · exact padEffect_PMB_of_ge (by rwa [← hP])

end Sys2Proof.Machine
end

section
/-! SUPPORT. The word reorder unit (41_word_reorder.md): `toWords` and `toBytes` undo each other, each of them word by
word and byte by byte, and from them what TOWORDS and TOBYTES store and that TOBYTES undoes TOWORDS. -/

namespace Sys2Proof.Machine

/-! ### The two functions undo each other (rule R122) -/

theorem groupWords_be32_append (w : Word) (bs : List Byte) : groupWords (be32 w ++ bs) = w :: groupWords bs :=
  congrArg (· :: groupWords bs) (wordBE_be32 w)

@[simp] theorem groupWords_toBytes (ws : List Word) : groupWords (toBytes ws) = ws := by
  induction ws with
  | nil => rfl
  | cons w ws ih => rw [toBytes_cons, groupWords_be32_append, ih]

theorem toBytes_groupWords : ∀ bs : List Byte, bs.length % 4 = 0 → toBytes (groupWords bs) = bs
  | [], _ => rfl
  | [_], h => absurd h (by simp)
  | [_, _], h => absurd h (by simp)
  | [_, _, _], h => absurd h (by simp)
  | b0 :: b1 :: b2 :: b3 :: bs, h => by
    have ih := toBytes_groupWords bs (by simpa only [List.length_cons, Nat.add_assoc, Nat.add_mod_right] using h)
    rw [groupWords, toBytes_cons, be32_wordBE, ih]
    rfl

theorem toWords_eq_none {bs : List Byte} : toWords bs = none ↔ bs.length % 4 ≠ 0 := by
  simp [toWords]

theorem toWords_eq_some {bs : List Byte} {ws : List Word} :
    toWords bs = some ws ↔ bs.length % 4 = 0 ∧ groupWords bs = ws := by
  simp [toWords]

theorem toBytes_length_mod (ws : List Word) : (toBytes ws).length % 4 = 0 := by
  rw [toBytes_length, Nat.mul_mod_right]

/-- Settles O26: on whole words `toWords` is the grouping, and grouping and `toBytes` undo each other. -/
theorem wordReorderRoundTrip : Obligations.WordReorderRoundTrip :=
  ⟨fun ws => toWords_eq_some.2 ⟨toBytes_length_mod ws, groupWords_toBytes ws⟩,
    fun bs h => ⟨groupWords bs, toWords_eq_some.2 ⟨h, rfl⟩, toBytes_groupWords bs h⟩,
    fun _ => toWords_eq_none.2⟩

/-! ### Byte by byte (rules R120 and R121) -/

/-- Byte `4i + j` of `toBytes(Ws)` is byte `j` of the word that stands at `i`. -/
theorem toBytes_getElem?_of_word {ws : List Word} {i j : Nat} {w : Word} (h : ws[i]? = some w) (hj : j < 4) :
    (toBytes ws)[4 * i + j]? = (be32 w)[j]? := by
  obtain ⟨hi, -⟩ := List.getElem?_eq_some_iff.1 h
  rw [toBytes_getElem? ws i j hj hi, List.getD_eq_getElem?_getD, h, Option.getD_some]

/-- Settles O27: the word at `i` is `wordBE` of the four bytes from `4i` on, and these are `be32` of it. -/
theorem wordReorderIsBigEndian : Obligations.WordReorderIsBigEndian := by
  refine ⟨fun bs ws h => ?_, fun _ => toWords_eq_none, fun ws => ⟨toBytes_length ws, fun i w h => ?_⟩⟩
  · obtain ⟨-, rfl⟩ := toWords_eq_some.1 h
    refine ⟨groupWords_length bs, fun i hi => ?_⟩
    exact ⟨_, _, _, _, _, getElem?_eq_getD bs _ (by omega), getElem?_eq_getD bs _ (by omega),
      getElem?_eq_getD bs _ (by omega), getElem?_eq_getD bs _ (by omega), groupWords_getElem? bs i hi,
      wordBE_toNat _ _ _ _⟩
  · have hbyte : ∀ j, j < 4 → (toBytes ws)[4 * i + j]? = (be32 w)[j]? := fun _ => toBytes_getElem?_of_word h
    exact ⟨hbyte 0 (by decide), hbyte 1 (by decide), hbyte 2 (by decide), hbyte 3 (by decide)⟩

/-! ### The command TOWORDS (rule R123) -/

/-- TOWORDS of a byte sequence longer than PMB raises CapacityError. -/
theorem exec_towords_of_gt {s : State} (h : s.PLEN.toNat > pmbCap s.cfg) :
    exec .towords s = raise .capacityError 0x03 s := by
  rw [exec_eq, errorOf, if_pos h]
  rfl

/-- TOWORDS of a byte sequence that fits PMB and is no whole number of words raises InvalidLength. -/
theorem exec_towords_of_mod_ne {s : State} (hle : s.PLEN.toNat ≤ pmbCap s.cfg) (hmod : s.PLEN.toNat % 4 ≠ 0) :
    exec .towords s = raise .invalidLength 0x03 s := by
  rw [exec_eq, errorOf, if_neg (by omega), if_pos hmod]
  rfl

theorem errorOf_towords_eq_none {s : State} :
    errorOf .towords s = none ↔ s.PLEN.toNat ≤ pmbCap s.cfg ∧ s.PLEN.toNat % 4 = 0 := by
  rw [errorOf]
  split_ifs with hcap hmod
  · simp [hcap]
  · simp [hmod]
  · exact iff_of_true rfl ⟨not_lt.1 hcap, not_not.1 hmod⟩

/-- TOWORDS of whole words within the capacity answers its effect. -/
theorem exec_towords_of_le {s : State} (hle : s.PLEN.toNat ≤ pmbCap s.cfg) (hmod : s.PLEN.toNat % 4 = 0) :
    exec .towords s = respondOk (toWordsEffect s) := by
  rw [exec_eq, errorOf_towords_eq_none.2 ⟨hle, hmod⟩]
  rfl

theorem toWordsEffect_WLEN_toNat (s : State) : (toWordsEffect s).WLEN.toNat = s.PLEN.toNat / 4 := by
  have hlt : s.PLEN.toNat < 2 ^ 64 := s.PLEN.isLt
  rw [toWordsEffect_WLEN, BitVec.toNat_ofNat, Nat.mod_eq_of_lt (by omega)]

theorem paddedBytes_getD {s : State} {i : Nat} (h : i < s.PLEN.toNat) : s.paddedBytes.getD i 0 = s.readPmb i := by
  rw [List.getD_eq_getElem?_getD, paddedBytes_getElem? s i h, Option.getD_some]

/-- The cells of WSEQ below the new length hold the big-endian words of the bytes read from PMB. -/
theorem toWordsEffect_WSEQ_of_lt {s : State} {i : Nat} (h : i < s.PLEN.toNat / 4) :
    Memory.content (toWordsEffect s).WSEQ i =
      some (wordBE (s.readPmb (4 * i)) (s.readPmb (4 * i + 1)) (s.readPmb (4 * i + 2)) (s.readPmb (4 * i + 3))) := by
  rw [toWordsEffect_WSEQ, if_pos h, groupWords_getElem? _ _ (by rwa [paddedBytes_length]),
    paddedBytes_getD (by omega), paddedBytes_getD (by omega), paddedBytes_getD (by omega), paddedBytes_getD (by omega)]

/-- The cells of WSEQ from the new length on are as before. -/
theorem toWordsEffect_WSEQ_of_ge {s : State} {i : Nat} (h : s.PLEN.toNat / 4 ≤ i) :
    Memory.content (toWordsEffect s).WSEQ i = Memory.content s.WSEQ i := by
  rw [toWordsEffect_WSEQ, if_neg (by omega)]

/-- Settles O37: the errors in their order, and the words the effect stores. -/
theorem towordsStoresTheWords : Obligations.TowordsStoresTheWords := by
  refine ⟨(decodeAndEncodeAgree _ _).2 rfl, fun s => exec_towords_of_gt, fun s => exec_towords_of_mod_ne,
    fun s hle hmod => ?_⟩
  have hn := toWordsEffect_WLEN_toNat s
  refine ⟨(toWordsEffect s).WSEQ, (toWordsEffect s).WLEN, exec_towords_of_le hle hmod, hn, fun i hi => ?_,
    fun i hi => ?_⟩
  · exact ⟨_, toWordsEffect_WSEQ_of_lt (by rwa [← hn]), wordBE_toNat _ _ _ _⟩
  · exact toWordsEffect_WSEQ_of_ge (by rwa [← hn])

/-! ### The command TOBYTES (rule R124) -/

/-- TOBYTES of a word sequence longer than WSEQ raises CapacityError. -/
theorem exec_tobytes_of_gt {s : State} (h : s.WLEN.toNat > wseqCap s.cfg) :
    exec .tobytes s = raise .capacityError 0x04 s := by
  rw [exec_eq, errorOf, if_pos h]
  rfl

/-- TOBYTES of a word sequence within the capacity answers its effect. -/
theorem exec_tobytes_of_le {s : State} (h : s.WLEN.toNat ≤ wseqCap s.cfg) :
    exec .tobytes s = respondOk (toBytesEffect s) := by
  rw [exec_eq, errorOf, if_neg (by omega)]
  rfl

/-- The bytes of a word sequence that fits WSEQ fit PMB (00_scope.md rule R6). -/
theorem four_mul_le_pmbCap {c : Config} {n : Nat} (h : n ≤ wseqCap c) : 4 * n ≤ pmbCap c := by
  rw [wseqCap] at h
  omega

theorem pmbCap_lt {c : Config} (hwf : c.wf = true) : pmbCap c < 2 ^ 64 := by
  rw [pmbCap_eq]
  exact paddedLength_lt hwf le_rfl

theorem toBytesEffect_PLEN_toNat {s : State} (h : 4 * s.WLEN.toNat < 2 ^ 64) :
    (toBytesEffect s).PLEN.toNat = 4 * s.WLEN.toNat := by
  rw [toBytesEffect_PLEN, BitVec.toNat_ofNat, Nat.mod_eq_of_lt h]

/-- The cells of PMB below the new length hold the four bytes of each word read from WSEQ. -/
theorem toBytesEffect_PMB_of_lt {s : State} {i j : Nat} (hi : i < s.WLEN.toNat) (hj : j < 4) :
    Memory.content (toBytesEffect s).PMB (4 * i + j) = (be32 (s.readWseq i))[j]? := by
  rw [toBytesEffect_PMB, if_pos (by omega), toBytes_getElem?_of_word (wordSeq_getElem? s i hi) hj]

/-- The cells of PMB from the new length on are as before. -/
theorem toBytesEffect_PMB_of_ge {s : State} {i : Nat} (h : 4 * s.WLEN.toNat ≤ i) :
    Memory.content (toBytesEffect s).PMB i = Memory.content s.PMB i := by
  rw [toBytesEffect_PMB, if_neg (by omega)]

/-- Settles O38: the error, and the bytes the effect stores, whose number does not wrap. -/
theorem tobytesStoresTheBytes : Obligations.TobytesStoresTheBytes := by
  refine ⟨(decodeAndEncodeAgree _ _).2 rfl, fun s => exec_tobytes_of_gt, fun s hwf hle => ?_⟩
  have hcap := four_mul_le_pmbCap hle
  have hp := toBytesEffect_PLEN_toNat (hcap.trans_lt (pmbCap_lt hwf))
  refine ⟨(toBytesEffect s).PMB, (toBytesEffect s).PLEN, exec_tobytes_of_le hle, hp, by rwa [hp], fun i hi => ?_,
    fun i hi => ?_⟩
  · have hbyte : ∀ j, j < 4 → Memory.content (toBytesEffect s).PMB (4 * i + j) = (be32 (s.readWseq i))[j]? :=
      fun _ => toBytesEffect_PMB_of_lt hi
    exact ⟨hbyte 0 (by decide), hbyte 1 (by decide), hbyte 2 (by decide), hbyte 3 (by decide)⟩
  · exact toBytesEffect_PMB_of_ge (by rwa [← hp])

/-! ### TOBYTES after TOWORDS (rules R122 and R124) -/

/-- A command that responds OK raised no error and had its effect. -/
theorem exec_of_response_ok {i : Instr} {s t : State} (h : exec i s = .next t) (hok : t.response = some .ok) :
    errorOf i s = none ∧ t = { effectOf i s with response := some .ok } := by
  rcases exec_cases h with ⟨c, -, rfl⟩ | hnone
  · cases hok
  · exact hnone

/-- After TOWORDS the argument of TOBYTES is the grouped bytes. -/
theorem wordSeq_toWordsEffect (s : State) : (toWordsEffect s).wordSeq = groupWords s.paddedBytes := by
  have hlen : (toWordsEffect s).wordSeq.length = (groupWords s.paddedBytes).length := by
    rw [wordSeq_length, toWordsEffect_WLEN_toNat, groupWords_length, paddedBytes_length]
  refine List.ext_getElem? fun i => ?_
  by_cases hi : i < (toWordsEffect s).WLEN.toNat
  · have hget := getElem?_eq_getD (groupWords s.paddedBytes) i (by rwa [← hlen, wordSeq_length])
    have hcell : Memory.content (toWordsEffect s).WSEQ i = (groupWords s.paddedBytes)[i]? := by
      rw [toWordsEffect_WSEQ, if_pos (by rwa [← toWordsEffect_WLEN_toNat])]
    rw [wordSeq_getElem? _ _ hi, readWseq_of (hcell.trans hget), hget]
  · rw [← wordSeq_length] at hi
    rw [List.getElem?_eq_none (by omega), List.getElem?_eq_none (by omega)]

/-- TOBYTES after TOWORDS of whole words leaves a written PMB as it was. -/
theorem toBytesEffect_toWordsEffect_PMB {s : State} (hmod : s.PLEN.toNat % 4 = 0)
    (hw : ∀ i, i < s.PLEN.toNat → (Memory.content s.PMB i).isSome = true) (i : Nat) :
    Memory.content (toBytesEffect (toWordsEffect s)).PMB i = Memory.content s.PMB i := by
  have hlen : 4 * (toWordsEffect s).WLEN.toNat = s.PLEN.toNat := by
    rw [toWordsEffect_WLEN_toNat]
    omega
  by_cases hi : i < s.PLEN.toNat
  · rw [toBytesEffect_PMB, hlen, if_pos hi, wordSeq_toWordsEffect,
      toBytes_groupWords _ (by rwa [paddedBytes_length]), paddedBytes_getElem? s i hi, content_PMB_of_isSome (hw i hi)]
  · rw [toBytesEffect_PMB_of_ge (by omega), toWordsEffect_PMB]

/-- TOBYTES after TOWORDS of whole words leaves PLEN as it was. -/
theorem toBytesEffect_toWordsEffect_PLEN {s : State} (hmod : s.PLEN.toNat % 4 = 0) :
    (toBytesEffect (toWordsEffect s)).PLEN = s.PLEN := by
  rw [toBytesEffect_PLEN, toWordsEffect_WLEN_toNat, Nat.mul_div_cancel' (Nat.dvd_of_mod_eq_zero hmod),
    BitVec.ofNat_toNat, BitVec.setWidth_eq]

/-- Settles O54: TOWORDS answered OK, so it grouped whole words that fit, and TOBYTES of them restores the bytes. -/
theorem tobytesAfterTowordsRestoresTheBytes : Obligations.TobytesAfterTowordsRestoresTheBytes := by
  intro s t _ ht hok hw
  obtain ⟨hnone, rfl⟩ := exec_of_response_ok ht hok
  obtain ⟨hle, hmod⟩ := errorOf_towords_eq_none.1 hnone
  have hfits : (toWordsEffect s).WLEN.toNat ≤ wseqCap s.cfg := by
    rw [toWordsEffect_WLEN_toNat, wseqCap]
    exact Nat.div_le_div_right hle
  exact ⟨_, exec_tobytes_of_le hfits, rfl, toBytesEffect_toWordsEffect_PLEN hmod,
    toBytesEffect_toWordsEffect_PMB hmod hw⟩

end Sys2Proof.Machine
end

section
/-! SUPPORT. The message scheduler (42_scheduler.md): the sigma functions bit by bit, the recurrence of the schedule,
what LOADBLK, SCHED and EXPAND leave in W, and that EXPAND is SCHED repeated. -/

open Sys2Proof.Claims

namespace Sys2Proof.Machine

/-! ### The sigma functions (rules R130, R131, R142 and R143) -/

theorem xor_rotr_rotr_rotr_getLsbD (x : Word) {a b c i : Nat} (ha : a ≤ 31) (hb : b ≤ 31) (hc : c ≤ 31)
    (hi : i < 32) :
    (rotr x a ^^^ rotr x b ^^^ rotr x c).getLsbD i =
      (x.getLsbD ((i + a) % 32) ^^ x.getLsbD ((i + b) % 32) ^^ x.getLsbD ((i + c) % 32)) := by
  rw [BitVec.getLsbD_xor, BitVec.getLsbD_xor, rotr_getLsbD x ha hi, rotr_getLsbD x hb hi, rotr_getLsbD x hc hi]

theorem xor_rotr_rotr_shr_getLsbD (x : Word) {a b c i : Nat} (ha : a ≤ 31) (hb : b ≤ 31) (hi : i < 32) :
    (rotr x a ^^^ rotr x b ^^^ shr x c).getLsbD i =
      (x.getLsbD ((i + a) % 32) ^^ x.getLsbD ((i + b) % 32) ^^ (decide (i < 32 - c) && x.getLsbD (i + c))) := by
  rw [BitVec.getLsbD_xor, BitVec.getLsbD_xor, rotr_getLsbD x ha hi, rotr_getLsbD x hb hi, shr_getLsbD]
  simp only [Nat.lt_sub_iff_add_lt]

/-- Settles O56: the three terms are the definitions, and rotation and shift are known bit by bit. -/
theorem sigmasAreTheirThreeTerms : Obligations.SigmasAreTheirThreeTerms := by
  refine fun x => ⟨rfl, rfl, rfl, rfl, fun i hi => ⟨?_, ?_, ?_, ?_⟩⟩
  · exact xor_rotr_rotr_shr_getLsbD x (by decide) (by decide) hi
  · exact xor_rotr_rotr_shr_getLsbD x (by decide) (by decide) hi
  · exact xor_rotr_rotr_rotr_getLsbD x (by decide) (by decide) (by decide) hi
  · exact xor_rotr_rotr_rotr_getLsbD x (by decide) (by decide) (by decide) hi

/-! ### The recurrence (rule R132) -/

/-- Each word added to a schedule comes from four words of the result: the word at the end of `S` from words of `S`,
which later words leave as they are. -/
theorem extendSchedule_recurrence (k : Nat) : ∀ {S : List Word} {t : Nat}, 16 ≤ S.length → S.length ≤ t →
    t < S.length + k → ∃ w2 w7 w15 w16,
      (extendSchedule k S)[t - 2]? = some w2 ∧ (extendSchedule k S)[t - 7]? = some w7 ∧
      (extendSchedule k S)[t - 15]? = some w15 ∧ (extendSchedule k S)[t - 16]? = some w16 ∧
      (extendSchedule k S)[t]? = some (scheduleWord w2 w7 w15 w16) := by
  induction k with
  | zero => intro S t _ hlo hhi; omega
  | succ k ih =>
    intro S t h16 hlo hhi
    rcases hlo.eq_or_lt with rfl | hlt
    · have old : ∀ i, i < S.length → (extendSchedule (k + 1) S)[i]? = some (S.getD i 0) := fun i hi =>
        (extendSchedule_getElem?_lt (k + 1) S i hi).trans (getElem?_eq_getD S i hi)
      refine ⟨_, _, _, _, old _ (by omega), old _ (by omega), old _ (by omega), old _ (by omega), ?_⟩
      rw [extendSchedule, extendSchedule_getElem?_lt _ _ _ (by simp), List.getElem?_concat_length]
    · rw [extendSchedule]
      exact ih (by simp; omega) (by simpa using hlt) (by simp; omega)

/-- Settles O30: the schedule is the block extended by 48 words. -/
theorem scheduleFollowsTheRecurrence : Obligations.ScheduleFollowsTheRecurrence := by
  intro blk hlen
  refine ⟨by rw [schedule_length, hlen], fun t ht => ?_, fun t hlo hhi => ?_⟩
  · exact extendSchedule_getElem?_lt 48 blk t (by omega)
  · exact extendSchedule_recurrence 48 (by omega) (by omega) (by omega)

/-! ### The command LOADBLK (rule R133) -/

/-- LOADBLK of a block that is not there raises BlockRangeError. -/
theorem exec_loadblk_of_outOfRange {s : State} (h : s.blockOutOfRange = true) :
    exec .loadblk s = raise .blockRangeError 0x05 s := by
  rw [exec_eq, errorOf, if_pos h]
  rfl

/-- LOADBLK of a block in range answers its effect. -/
theorem exec_loadblk_of_inRange {s : State} (h : s.blockOutOfRange = false) :
    exec .loadblk s = respondOk { takeBlock s with TS := 16 } := by
  rw [exec_eq, errorOf, if_neg (by simp [h])]
  rfl

theorem blockOutOfRange_eq_false {s : State} (hcap : s.WLEN.toNat ≤ wseqCap s.cfg)
    (hblk : 16 * s.BP.toNat + 16 ≤ s.WLEN.toNat) : s.blockOutOfRange = false := by
  rw [← Bool.not_eq_true, blockOutOfRange_iff]
  omega

/-- Settles O39: the error, and the words the block copy leaves in W. -/
theorem loadblkCopiesTheBlock : Obligations.LoadblkCopiesTheBlock := by
  refine ⟨(decodeAndEncodeAgree _ _).2 rfl, fun s h => ?_, fun s hcap hblk => ?_⟩
  · exact exec_loadblk_of_outOfRange ((blockOutOfRange_iff s).2 h)
  · have hin := blockOutOfRange_eq_false hcap hblk
    refine ⟨(takeBlock s).W, exec_loadblk_of_inRange hin, fun i hi => ?_, fun i hi => ?_⟩
    · rw [takeBlock_W, if_pos hi]
    · rw [takeBlock_W, if_neg (by omega)]

/-! ### The command SCHED (rule R134) -/

/-- SCHED with the schedule complete raises SequenceError. -/
theorem exec_sched_of_eq {s : State} (h : s.TS = 64) : exec .sched s = raise .sequenceError 0x06 s := by
  rw [exec_eq, errorOf, if_pos h]
  rfl

/-- SCHED with words remaining answers its effect. -/
theorem exec_sched_of_ne {s : State} (h : s.TS ≠ 64) : exec .sched s = respondOk (effectOf .sched s) := by
  rw [exec_eq, errorOf, if_neg h]

theorem ofNat_toNat_add_one {w : Nat} (x : BitVec w) : BitVec.ofNat w (x.toNat + 1) = x + 1 := by
  rw [BitVec.ofNat_add, BitVec.ofNat_toNat, BitVec.setWidth_eq]
  rfl

theorem effectOf_sched (s : State) : effectOf .sched s = { scheduleStep s s.TS.toNat with TS := s.TS + 1 } := by
  rw [effectOf, ofNat_toNat_add_one]

theorem scheduleWord_eq (w2 w7 w15 w16 : Word) :
    scheduleWord w2 w7 w15 w16 = smallSig1 w2 + w7 + smallSig0 w15 + w16 := rfl

theorem TS_ne_of_toNat_lt {s : State} (h : s.TS.toNat < 64) : s.TS ≠ 64 := by
  intro h64
  rw [h64] at h
  exact absurd h (by decide)

/-- Settles O40: the error, and the one register of W a schedule step writes. -/
theorem schedComputesTheNextWord : Obligations.SchedComputesTheNextWord := by
  refine ⟨(decodeAndEncodeAgree _ _).2 rfl, fun s => exec_sched_of_eq, fun s _ hle => ?_⟩
  have hlt : s.TS.toNat < 64 := Nat.lt_succ_of_le hle
  refine ⟨(scheduleStep s s.TS.toNat).W, ?_, ?_, fun i hi => ?_⟩
  · rw [exec_sched_of_ne (TS_ne_of_toNat_lt hlt), effectOf_sched]
    rfl
  · rw [scheduleStep_W _ _ _ hlt, if_pos rfl, scheduleWord_eq]
  · rw [scheduleStep_W _ _ _ hlt, if_neg hi]

/-! ### The command EXPAND (rule R135) -/

theorem exec_expand (s : State) : exec .expand s = respondOk (effectOf .expand s) := rfl

theorem effectOf_expand (s : State) :
    effectOf .expand s = { scheduleFrom s.TS.toNat s with TS := 64 } := rfl

theorem scheduleFrom_of_ge {lo : Nat} (h : 64 ≤ lo) (s : State) : scheduleFrom lo s = s := by
  rw [scheduleFrom, Nat.sub_eq_zero_of_le h]
  rfl

/-- EXPAND's loop leaves the words below its start. -/
theorem scheduleFrom_W_of_lt {lo i : Nat} (h : i < lo) (s : State) :
    RegFile.content (scheduleFrom lo s).W i = RegFile.content s.W i := by
  by_cases hlo : lo < 64
  · rw [scheduleFrom_succ lo s hlo, scheduleFrom_W_of_lt (Nat.lt_succ_of_lt h), scheduleStep_W s lo i hlo,
      if_neg h.ne]
  · rw [scheduleFrom_of_ge (Nat.le_of_not_lt hlo)]
termination_by 64 - lo

/-- From a file that starts with the words `S`, EXPAND's loop leaves `S` extended to 64 words. -/
theorem HoldsSchedule.scheduleFrom {s : State} {S : List Word} (h : HoldsSchedule s S) (h16 : 16 ≤ S.length)
    (h64 : S.length ≤ 64) :
    HoldsSchedule (Machine.scheduleFrom S.length s) (extendSchedule (64 - S.length) S) :=
  h.loop _ h16 (by omega)

/-- The words W[0 .. n) as they are read. -/
def State.scheduleWords (s : State) (n : Nat) : List Word := (List.range n).map s.readW

@[simp] theorem scheduleWords_length (s : State) (n : Nat) : (s.scheduleWords n).length = n := by
  simp [State.scheduleWords]

theorem holdsSchedule_scheduleWords {s : State} {n : Nat}
    (h : ∀ i, i < n → (RegFile.content s.W i).isSome = true) : HoldsSchedule s (s.scheduleWords n) := by
  intro j hj
  rw [scheduleWords_length] at hj
  simp [State.scheduleWords, hj, content_W_of_isSome (h j hj)]

/-- From a written W[0 .. lo), EXPAND's loop leaves words that follow the recurrence from `lo` on. -/
theorem scheduleFrom_recurrence {s : State} {lo t : Nat} (h16 : 16 ≤ lo)
    (hW : ∀ i, i < lo → (RegFile.content s.W i).isSome = true) (hlo : lo ≤ t) (hhi : t ≤ 63) :
    ∃ w2 w7 w15 w16,
      RegFile.content (scheduleFrom lo s).W (t - 2) = some w2 ∧
      RegFile.content (scheduleFrom lo s).W (t - 7) = some w7 ∧
      RegFile.content (scheduleFrom lo s).W (t - 15) = some w15 ∧
      RegFile.content (scheduleFrom lo s).W (t - 16) = some w16 ∧
      RegFile.content (scheduleFrom lo s).W t = some (scheduleWord w2 w7 w15 w16) := by
  have hlen := scheduleWords_length s lo
  have hS := (holdsSchedule_scheduleWords hW).scheduleFrom (by omega) (by omega)
  rw [hlen] at hS
  have hget : ∀ j, j ≤ t →
      RegFile.content (scheduleFrom lo s).W j = (extendSchedule (64 - lo) (s.scheduleWords lo))[j]? :=
    fun j hj => hS j (by rw [extendSchedule_length]; omega)
  rw [hget t le_rfl, hget (t - 2) (by omega), hget (t - 7) (by omega), hget (t - 15) (by omega),
    hget (t - 16) (by omega)]
  exact extendSchedule_recurrence (64 - lo) (by omega) (by omega) (by omega)

/-- Settles O41: the frame of EXPAND's loop, the words it leaves, and the words it computes. -/
theorem expandComputesTheRemainingWords : Obligations.ExpandComputesTheRemainingWords := by
  refine ⟨(decodeAndEncodeAgree _ _).2 rfl, fun s => ?_⟩
  refine ⟨(scheduleFrom s.TS.toNat s).W, s.draws + (64 - s.TS.toNat), ?_, fun hTS => ?_, fun _ i hi => ?_,
    fun h16 hW t hlo hhi => ?_, fun blk hTS hlen hW => ?_⟩
  · rw [exec_expand, effectOf_expand, scheduleFrom_frame, respondOk_eq]
  · rw [hTS]
    exact ⟨rfl, rfl⟩
  · exact scheduleFrom_W_of_lt hi s
  · exact scheduleFrom_recurrence h16 hW hlo hhi
  · have hblk : HoldsSchedule s blk := fun j hj => hW j (hlen ▸ hj)
    have hS := hblk.scheduleFrom (by omega) (by omega)
    rw [hlen] at hS
    rw [hTS]
    exact fun i hi => hS i (by rw [extendSchedule_length]; omega)

/-! ### EXPAND is SCHED repeated (rules R134 and R135) -/

/-- With no word remaining EXPAND changes at most the response. -/
theorem expand_of_TS_eq {s : State} (hTS : s.TS = 64) (hok : s.response = some .ok) :
    (effectOf .expand s).respond .ok = s := by
  have hloop : scheduleFrom s.TS.toNat s = s := by rw [hTS]; rfl
  rw [effectOf_expand, hloop, State.respond, ← hTS, ← hok]

/-- While words remain SCHED does not wrap the counter. -/
theorem effectOf_sched_TS_toNat {s : State} (h : s.TS.toNat < 64) :
    (effectOf .sched s).TS.toNat = s.TS.toNat + 1 := by
  simp only [effectOf, BitVec.toNat_ofNat]
  omega

/-- EXPAND's loop after a SCHED is EXPAND's loop but for the counter and the response. -/
theorem scheduleFrom_sched {s : State} (h : s.TS.toNat < 64) :
    scheduleFrom (s.TS.toNat + 1) ((effectOf .sched s).respond .ok) =
      { scheduleFrom s.TS.toNat s with TS := BitVec.ofNat 7 (s.TS.toNat + 1), response := some .ok } := by
  rw [scheduleFrom_succ _ s h]
  refine (scheduleFrom_with _ (scheduleStep s s.TS.toNat) _ s.TR _).trans ?_
  rw [scheduleFrom_frame]
  rfl

/-- With a word remaining EXPAND leaves the same state after a SCHED as at once. -/
theorem expand_sched {s : State} (h : s.TS.toNat < 64) :
    (effectOf .expand ((effectOf .sched s).respond .ok)).respond .ok = (effectOf .expand s).respond .ok := by
  rw [effectOf_expand, respond_TS, effectOf_sched_TS_toNat h, scheduleFrom_sched h]
  rfl

/-- The SCHED commands that bring TS to 64 leave what EXPAND leaves. -/
theorem repeatOk_sched (n : Nat) : ∀ {s : State}, s.TS.toNat + n = 64 → (n = 0 → s.response = some .ok) →
    repeatOk .sched n s ((effectOf .expand s).respond .ok) := by
  induction n with
  | zero =>
    intro s hn hok
    exact expand_of_TS_eq (BitVec.eq_of_toNat_eq hn) (hok rfl)
  | succ n ih =>
    intro s hn _
    have hlt : s.TS.toNat < 64 := by omega
    refine ⟨(effectOf .sched s).respond .ok, exec_sched_of_ne (TS_ne_of_toNat_lt hlt), rfl, ?_⟩
    rw [← expand_sched hlt]
    refine ih ?_ fun _ => rfl
    rw [respond_TS, effectOf_sched_TS_toNat hlt]
    omega

/-- Settles O51: EXPAND's effect is that of the remaining SCHED commands. -/
theorem expandIsRepeatedSched : Obligations.ExpandIsRepeatedSched := by
  intro s hok hle
  exact ⟨_, exec_expand s, repeatOk_sched _ (by omega) fun h => hok (by omega)⟩

end Sys2Proof.Machine
end

section
/-! SUPPORT. The table K of the round constants (43_compressor.md rule R144): the first 64 primes, and that each
constant is the low word of a cube root. -/

namespace Sys2Proof.Machine

/-! ### The first primes -/

/-- The `t`-th element of the filtered range is the `t`-th number with the property. -/
theorem nth_of_filter_range {p : Nat → Prop} [DecidablePred p] {n t x : Nat}
    (h : ((List.range n).filter p)[t]? = some x) : Nat.nth p t = x := by
  induction n with
  | zero => simp at h
  | succ n ih =>
    rw [List.range_succ, List.filter_append] at h
    by_cases ht : t < ((List.range n).filter p).length
    · exact ih (by rwa [List.getElem?_append_left ht] at h)
    · have hcount : ((List.range n).filter p).length = Nat.count p n := (List.countP_eq_length_filter ..).symm
      by_cases hn : p n
      · simp only [List.getElem?_append_right (Nat.le_of_not_lt ht), hn, decide_true, List.filter_cons_of_pos,
          List.filter_nil, List.getElem?_singleton, Option.ite_none_right_eq_some, Option.some.injEq] at h
        obtain ⟨htn, rfl⟩ := h
        rw [show t = Nat.count p n by omega, Nat.nth_count hn]
      · simp [hn, List.getElem?_eq_none (Nat.le_of_not_lt ht)] at h

/-- Trial division by 2 to 17. -/
def trialPrime (n : Nat) : Bool := 2 ≤ n && (List.range' 2 16).all fun m => n % m ≠ 0 || m = n

/-- Below `18 ^ 2` a composite number has a divisor of at most 17. -/
theorem prime_iff_trialPrime {n : Nat} (h : n < 18 ^ 2) : n.Prime ↔ trialPrime n = true := by
  simp only [trialPrime, Bool.and_eq_true, decide_eq_true_eq, List.all_eq_true, List.mem_range'_1, Bool.or_eq_true]
  constructor
  · intro hp
    refine ⟨hp.two_le, fun m hm => or_iff_not_imp_left.2 fun hmod => ?_⟩
    have hdvd : m ∣ n := Nat.dvd_of_mod_eq_zero (not_not.1 hmod)
    exact (hp.eq_one_or_self_of_dvd m hdvd).resolve_left (by omega)
  · rintro ⟨h2, hdiv⟩
    refine Nat.prime_def_le_sqrt.2 ⟨h2, fun m hm2 hle hdvd => ?_⟩
    have hlt : m < n := hle.trans_lt (Nat.sqrt_lt_self h2)
    have h18 : m < 18 := hle.trans_lt (Nat.sqrt_lt'.2 h)
    exact (hdiv m ⟨hm2, h18⟩).elim (absurd (Nat.mod_eq_zero_of_dvd hdvd)) hlt.ne

/-- The first 64 primes. -/
def firstPrimes : List Nat :=
  [2, 3, 5, 7, 11, 13, 17, 19, 23, 29, 31, 37, 41, 43, 47, 53, 59, 61, 67, 71, 73, 79, 83, 89, 97, 101, 103, 107, 109,
   113, 127, 131, 137, 139, 149, 151, 157, 163, 167, 173, 179, 181, 191, 193, 197, 199, 211, 223, 227, 229, 233, 239,
   241, 251, 257, 263, 269, 271, 277, 281, 283, 293, 307, 311]

theorem filter_trialPrime_range : (List.range 312).filter trialPrime = firstPrimes := by decide

theorem filter_prime_range : (List.range 312).filter Nat.Prime = firstPrimes := by
  rw [← filter_trialPrime_range]
  refine List.filter_congr fun n hn => ?_
  have hlt := List.mem_range.1 hn
  simp [prime_iff_trialPrime (n := n) (by omega)]

/-- The `t`-th prime, for the 64 primes the constants are made of. -/
theorem nth_prime_eq {t : Nat} (ht : t < 64) : Nat.nth Nat.Prime t = firstPrimes.getD t 0 := by
  refine nth_of_filter_range (n := 312) ?_
  rw [filter_prime_range, List.getD_eq_getElem?_getD, List.getElem?_eq_getElem (by exact ht)]
  rfl

/-! ### The cube roots -/

/-- Under some whole part below 7, K[t] completes the integer cube root of the scaled prime. -/
theorem K_cubeRoot : ∀ t < 64, ∃ a < 7,
    (2 ^ 32 * a + (K t).toNat) ^ 3 ≤ firstPrimes.getD t 0 * 2 ^ 96 ∧
    firstPrimes.getD t 0 * 2 ^ 96 < (2 ^ 32 * a + (K t).toNat + 1) ^ 3 := by decide

/-- A multiple of `2 ^ 32` does not show in the low word. -/
theorem ofNat_mul_add_toNat (a : Nat) (w : Word) : BitVec.ofNat 32 (2 ^ 32 * a + w.toNat) = w := by
  apply BitVec.eq_of_toNat_eq
  rw [BitVec.toNat_ofNat, Nat.mul_add_mod, Nat.mod_eq_of_lt w.isLt]

/-- Settles O32: the `t`-th prime is known, and K[t] is the low word of its scaled cube root. -/
theorem roundConstantsAreCubeRoots : Obligations.RoundConstantsAreCubeRoots := by
  refine ⟨roundConstants_length, fun t ht => ?_⟩
  have hlt : t < 64 := Nat.lt_succ_of_le ht
  obtain ⟨a, -, hle, hlt3⟩ := K_cubeRoot t hlt
  rw [nth_prime_eq hlt]
  exact ⟨_, hle, hlt3, (ofNat_mul_add_toNat a (K t)).symm⟩

end Sys2Proof.Machine
end

section
/-! SUPPORT. The compressor (43_compressor.md): Ch and Maj bit by bit, the Compressor as 64 rounds, what LOADV, ROUND,
ROUNDS, ADDBACK and COMPRESS leave, and how these commands compose. -/

open Sys2Proof.Claims

namespace Sys2Proof.Machine

/-! ### Ch and Maj (rules R140 and R141) -/

theorem ch_getLsbD (x y z : Word) {i : Nat} (hi : i < 32) :
    (ch x y z).getLsbD i = (if x.getLsbD i then y.getLsbD i else z.getLsbD i) := by
  simp only [ch, BitVec.getLsbD_or, BitVec.getLsbD_and, BitVec.getLsbD_not, hi, decide_true, Bool.true_and]
  cases x.getLsbD i with
  | true => simp
  | false => simp

theorem two_le_toNat_add_iff : ∀ a b c : Bool,
    (a && b || a && c || b && c) = true ↔ 2 ≤ a.toNat + b.toNat + c.toNat := by decide

theorem maj_getLsbD (x y z : Word) (i : Nat) :
    (maj x y z).getLsbD i = true ↔ 2 ≤ (x.getLsbD i).toNat + (y.getLsbD i).toNat + (z.getLsbD i).toNat := by
  rw [maj, BitVec.getLsbD_or, BitVec.getLsbD_or, BitVec.getLsbD_and, BitVec.getLsbD_and, BitVec.getLsbD_and]
  exact two_le_toNat_add_iff _ _ _

/-- Settles O29: the bit of `x` chooses, and the majority is counted over the three bits. -/
theorem chAndMajBitByBit : Obligations.ChAndMajBitByBit :=
  fun x y z i hi => ⟨ch_getLsbD x y z hi, maj_getLsbD x y z i⟩

/-! ### The Compressor as a function (rules R145 and R146) -/

theorem Work.toList_ofList : ∀ {s : List Word}, s.length = 8 → (Work.ofList s).toList = s
  | [_, _, _, _, _, _, _, _], _ => rfl

/-- Settles O31: the working states are those of `roundsOn`, and `compress` adds the last one word by word. -/
theorem compressIsSixtyFourRoundsAndAdd : Obligations.CompressIsSixtyFourRoundsAndAdd := by
  intro s blk hs hblk
  refine ⟨roundsOn (schedule blk) (Work.ofList s), Work.toList_ofList hs, fun t ht => ?_, compress_length s blk hs,
    fun i hi => ?_⟩
  · exact ⟨_, getElem?_eq_getD _ t (by rw [schedule_length]; omega), rfl⟩
  · have hx := getElem?_eq_getD s i (by omega)
    have hy := getElem?_eq_getD (roundsOn (schedule blk) (Work.ofList s) 64).toList i
      (by rw [Work.toList_length]; omega)
    refine ⟨_, _, hx, hy, ?_⟩
    rw [compress, List.getElem?_zipWith, hx, hy]

/-! ### A command's answer, by its check -/

/-- A command whose check fails raises the error of the check. -/
theorem exec_of_errorOf_eq_some {i : Instr} {s : State} {c : Cause} (h : errorOf i s = some c) :
    exec i s = raise c (opcode i) s := by
  rw [exec_eq, h]

/-- A command whose check passes answers its effect. -/
theorem exec_of_errorOf_eq_none {i : Instr} {s : State} (h : errorOf i s = none) :
    exec i s = respondOk (effectOf i s) := by
  rw [exec_eq, h]

theorem errorOf_round_eq_none {s : State} (h64 : s.TR.toNat < 64) (hTS : s.TR.toNat < s.TS.toNat) :
    errorOf .round s = none := by
  refine if_neg (not_or.2 ⟨fun h => ?_, Nat.not_le.2 hTS⟩)
  rw [h] at h64
  exact absurd h64 (by decide)

theorem effectOf_round (s : State) : effectOf .round s = { roundStep s s.TR.toNat with TR := s.TR + 1 } := by
  rw [effectOf, ofNat_toNat_add_one]

theorem effectOf_rounds (s : State) : effectOf .rounds s = { roundsFrom s.TR.toNat s with TR := 64 } := rfl

/-! ### The commands LOADV, ROUND and ADDBACK (rules R147, R148 and R150) -/

/-- Settles O42: LOADV has no check, and its copy is known register by register. -/
theorem loadvCopiesTheHashState : Obligations.LoadvCopiesTheHashState :=
  ⟨(decodeAndEncodeAgree _ _).2 rfl, fun s => ⟨(loadWorking s).V, rfl, loadWorking_V s⟩⟩

/-- The eight words of a round, the temporaries written out (rule R145). -/
theorem sha256Round_toList (v : Work) (k w : Word) :
    (sha256Round v k w).toList =
      [v.h + bigSig1 v.e + ch v.e v.f v.g + k + w + (bigSig0 v.a + maj v.a v.b v.c), v.a, v.b, v.c,
        v.d + (v.h + bigSig1 v.e + ch v.e v.f v.g + k + w), v.e, v.f, v.g] := rfl

/-- Settles O43: the error, and the eight words a round step writes from the old ones. -/
theorem roundPerformsTheNextRound : Obligations.RoundPerformsTheNextRound := by
  refine ⟨(decodeAndEncodeAgree _ _).2 rfl, fun s h => exec_of_errorOf_eq_some (i := .round) (if_pos h),
    fun s h64 hTS => ?_⟩
  refine ⟨(roundStep s s.TR.toNat).V, ?_, _, _, rfl, rfl, fun i _ => ?_⟩
  · rw [exec_of_errorOf_eq_none (errorOf_round_eq_none h64 hTS), effectOf_round]
    rfl
  · rw [roundStep_V, sha256Round_toList]
    rfl

/-- Settles O45: the error, and the sum each register of H gets. -/
theorem addbackAddsTheWorkingState : Obligations.AddbackAddsTheWorkingState := by
  refine ⟨(decodeAndEncodeAgree _ _).2 rfl, fun s h => exec_of_errorOf_eq_some (i := .addback) (if_pos h),
    fun s h => ⟨(addBack s).H, ?_, addBack_H s⟩⟩
  exact exec_of_errorOf_eq_none (i := .addback) (if_neg (not_not.2 h))

/-! ### The command ROUNDS (rule R149) -/

theorem roundsFrom_of_ge {lo : Nat} (h : 64 ≤ lo) (s : State) : roundsFrom lo s = s := by
  rw [roundsFrom, Nat.sub_eq_zero_of_le h]
  rfl

/-- Where V holds `v` and W[lo .. 63] the words of `S`, the loop of ROUNDS leaves in V the rounds from `lo` on. -/
theorem HoldsWorking.roundsFrom {s : State} {v : Work} {S : List Word} {lo : Nat} (hV : HoldsWorking s v)
    (hW : ∀ t, lo ≤ t → t < 64 → RegFile.content s.W t = some (S.getD t 0)) :
    HoldsWorking (Machine.roundsFrom lo s) (roundsOver S lo (64 - lo) v) := by
  by_cases hlo : lo < 64
  · have hstep : HoldsWorking (roundStep s lo) (sha256Round v (K lo) (S.getD lo 0)) := fun i _ => by
      rw [roundStep_V, hV.working, readW_of (hW lo le_rfl hlo)]
    rw [roundsFrom_succ lo s hlo, show 64 - lo = 64 - (lo + 1) + 1 by omega, roundsOver]
    exact hstep.roundsFrom fun t ht => hW t (Nat.le_of_succ_le ht)
  · rw [roundsFrom_of_ge (Nat.le_of_not_lt hlo), Nat.sub_eq_zero_of_le (Nat.le_of_not_lt hlo)]
    exact hV
termination_by 64 - lo

theorem scheduleWords_getD (s : State) {n t : Nat} (h : t < n) : (s.scheduleWords n).getD t 0 = s.readW t := by
  simp [State.scheduleWords, h]

/-- One more round on the words W[0 .. 64) as they are read. -/
theorem roundsOver_scheduleWords_succ (s : State) (v : Work) {lo t : Nat} (hlo : lo ≤ t) (ht : t < 64) :
    roundsOver (s.scheduleWords 64) lo (t + 1 - lo) v =
      sha256Round (roundsOver (s.scheduleWords 64) lo (t - lo) v) (K t) (s.readW t) := by
  rw [Nat.succ_sub hlo, roundsOver_snoc, Nat.add_sub_cancel' hlo, scheduleWords_getD s ht]

/-- Settles O44: the error, the frame of the loop, and the rounds it performs on the words W holds. -/
theorem roundsPerformsTheRemainingRounds : Obligations.RoundsPerformsTheRemainingRounds := by
  refine ⟨(decodeAndEncodeAgree _ _).2 rfl, fun s h => exec_of_errorOf_eq_some (i := .rounds) (if_pos h),
    fun s hTS => ?_⟩
  refine ⟨(roundsFrom s.TR.toNat s).V, s.draws + (64 - s.TR.toNat), ?_, fun hTR => ?_, fun hTR hV hW => ?_⟩
  · rw [exec_of_errorOf_eq_none (i := .rounds) (if_neg (not_not.2 hTS)), effectOf_rounds, roundsFrom_frame,
      respondOk_eq]
  · rw [hTR]
    exact ⟨rfl, rfl⟩
  · refine ⟨fun t => roundsOver (s.scheduleWords 64) s.TR.toNat (t - s.TR.toNat) s.working, ?_, fun t hlo hhi => ?_, ?_⟩
    · simp only [Nat.sub_self, roundsOver]
    · exact roundsOver_scheduleWords_succ s s.working hlo (Nat.lt_succ_of_le hhi)
    · refine (holdsWorking_working hV).roundsFrom fun t hlo hhi => ?_
      rw [content_W_of_isSome (hW t hlo (Nat.le_of_lt_succ hhi)), scheduleWords_getD s hhi]

/-! ### The command COMPRESS (rule R151) -/

theorem errorOf_compress_eq_none {s : State} (h : s.blockOutOfRange = false) : errorOf .compress s = none :=
  if_neg (by rw [h]; decide)

/-- COMPRESS of a block in range answers its effect, the fields it changes written out. -/
theorem exec_compress_of_inRange {s : State} (h : s.blockOutOfRange = false) :
    exec .compress s = .next { s with
      H := (compressEffect s).H
      V := (compressEffect s).V
      W := (compressEffect s).W
      TS := 64
      TR := 64
      BP := s.BP + 1
      draws := s.draws + 115
      response := some .ok } := by
  have hframe := compressEffect_frame s
  rw [ofNat_toNat_add_one] at hframe
  rw [exec_of_errorOf_eq_none (errorOf_compress_eq_none h), effectOf]
  generalize compressEffect s = t at hframe ⊢
  exact congrArg respondOk hframe

/-- Settles O46: the error, and what COMPRESS leaves in W, and where H is written in H and V. -/
theorem compressUpdatesTheHashState : Obligations.CompressUpdatesTheHashState := by
  refine ⟨(decodeAndEncodeAgree _ _).2 rfl, fun s h => ?_, fun s hcap hblk => ?_⟩
  · exact exec_of_errorOf_eq_some (i := .compress) (if_pos ((blockOutOfRange_iff s).2 h))
  · exact ⟨_, _, _, _, exec_compress_of_inRange (blockOutOfRange_eq_false hcap hblk), fun i _ => compressEffect_W s i,
      fun hH => ⟨compressEffect_H s hH, compressEffect_V s hH⟩⟩

/-! ### COMPRESS is its five steps (rule R151)

The effects do not read the counters or the response, so the state each of the five commands leaves is a state of the
chain of effects under the counters and the response of that moment. -/

/-- A state with the counters replaced and the response OK. -/
def State.answered (s : State) (ts tr : BitVec 7) : State := { s with TS := ts, TR := tr, response := some .ok }

@[simp] theorem answered_BP (s : State) (ts tr : BitVec 7) : (s.answered ts tr).BP = s.BP := rfl
@[simp] theorem answered_response (s : State) (ts tr : BitVec 7) : (s.answered ts tr).response = some .ok := rfl

theorem respondOk_answered_TS (s : State) (ts tr ts' : BitVec 7) :
    respondOk { s.answered ts tr with TS := ts' } = .next (s.answered ts' tr) := rfl

theorem respondOk_answered_TR (s : State) (ts tr tr' : BitVec 7) :
    respondOk { s.answered ts tr with TR := tr' } = .next (s.answered ts tr') := rfl

theorem exec_loadblk_answered {s : State} (h : s.blockOutOfRange = false) :
    exec .loadblk s = .next ((takeBlock s).answered 16 s.TR) := exec_loadblk_of_inRange h

theorem exec_expand_answered (s : State) (tr : BitVec 7) :
    exec .expand (s.answered 16 tr) = .next ((scheduleFrom 16 s).answered 64 tr) := by
  have hTS : (s.answered 16 tr).TS.toNat = 16 := rfl
  have hloop : scheduleFrom 16 (s.answered 16 tr) = (scheduleFrom 16 s).answered 16 tr := scheduleFrom_with 16 s 16 tr _
  rw [exec_expand, effectOf_expand, hTS, hloop]
  exact respondOk_answered_TS _ _ _ _

theorem exec_loadv_answered (s : State) (ts tr : BitVec 7) :
    exec .loadv (s.answered ts tr) = .next ((loadWorking s).answered ts 0) := rfl

theorem exec_rounds_answered (s : State) :
    exec .rounds (s.answered 64 0) = .next ((roundsFrom 0 s).answered 64 64) := by
  have hTR : (s.answered 64 0).TR.toNat = 0 := rfl
  have hloop : roundsFrom 0 (s.answered 64 0) = (roundsFrom 0 s).answered 64 0 := roundsFrom_with 0 s 64 0 _
  rw [exec_of_errorOf_eq_none (i := .rounds) rfl, effectOf_rounds, hTR, hloop]
  exact respondOk_answered_TR _ _ _ _

theorem exec_addback_answered (s : State) (ts : BitVec 7) :
    exec .addback (s.answered ts 64) = .next ((addBack s).answered ts 64) := rfl

theorem exec_compress_answered {s : State} (h : s.blockOutOfRange = false) :
    exec .compress s =
      .next { (addBack (roundsFrom 0 (loadWorking (scheduleFrom 16 (takeBlock s))))).answered 64 64 with
        BP := s.BP + 1 } := by
  rw [exec_of_errorOf_eq_none (errorOf_compress_eq_none h), effectOf, compressEffect, ofNat_toNat_add_one]
  rfl

/-- Settles O50: the five commands and COMPRESS apply the same chain of effects. -/
theorem compressIsItsFiveSteps : Obligations.CompressIsItsFiveSteps := by
  intro s hcap hblk
  have hin := blockOutOfRange_eq_false hcap hblk
  refine ⟨_, _, _, _, _, exec_loadblk_answered hin, exec_expand_answered _ _, exec_loadv_answered _ _ _,
    exec_rounds_answered _, exec_addback_answered _ _, answered_response _ _ _, ?_, exec_compress_answered hin⟩
  rw [answered_BP, addBack_BP, roundsFrom_BP, loadWorking_BP, scheduleFrom_BP, takeBlock_BP]

/-! ### ROUNDS is ROUND repeated (rules R148 and R149) -/

/-- With no round remaining ROUNDS changes at most the response. -/
theorem rounds_of_TR_eq {s : State} (hTR : s.TR = 64) (hok : s.response = some .ok) :
    (effectOf .rounds s).respond .ok = s := by
  have hloop : roundsFrom s.TR.toNat s = s := by rw [hTR]; rfl
  rw [effectOf_rounds, hloop, State.respond, ← hTR, ← hok]

/-- While rounds remain ROUND does not wrap the counter. -/
theorem effectOf_round_TR_toNat {s : State} (h : s.TR.toNat < 64) :
    (effectOf .round s).TR.toNat = s.TR.toNat + 1 := by
  simp only [effectOf, BitVec.toNat_ofNat]
  omega

/-- ROUNDS' loop after a ROUND is ROUNDS' loop but for the counter and the response. -/
theorem roundsFrom_round {s : State} (h : s.TR.toNat < 64) :
    roundsFrom (s.TR.toNat + 1) ((effectOf .round s).respond .ok) =
      { roundsFrom s.TR.toNat s with TR := BitVec.ofNat 7 (s.TR.toNat + 1), response := some .ok } := by
  rw [roundsFrom_succ _ s h]
  refine (roundsFrom_with _ (roundStep s s.TR.toNat) s.TS _ _).trans ?_
  rw [roundsFrom_frame]
  rfl

/-- With a round remaining ROUNDS leaves the same state after a ROUND as at once. -/
theorem rounds_round {s : State} (h : s.TR.toNat < 64) :
    (effectOf .rounds ((effectOf .round s).respond .ok)).respond .ok = (effectOf .rounds s).respond .ok := by
  rw [effectOf_rounds, respond_TR, effectOf_round_TR_toNat h, roundsFrom_round h]
  rfl

/-- The ROUND commands that bring TR to 64 leave what ROUNDS leaves. -/
theorem repeatOk_round (n : Nat) : ∀ {s : State}, s.TS = 64 → s.TR.toNat + n = 64 →
    (n = 0 → s.response = some .ok) → repeatOk .round n s ((effectOf .rounds s).respond .ok) := by
  induction n with
  | zero =>
    intro s _ hn hok
    exact rounds_of_TR_eq (BitVec.eq_of_toNat_eq hn) (hok rfl)
  | succ n ih =>
    intro s hTS hn _
    have hlt : s.TR.toNat < 64 := by omega
    have hok : errorOf .round s = none := errorOf_round_eq_none hlt (by rw [hTS]; exact hlt)
    refine ⟨(effectOf .round s).respond .ok, exec_of_errorOf_eq_none hok, rfl, ?_⟩
    rw [← rounds_round hlt]
    refine ih hTS ?_ fun _ => rfl
    rw [respond_TR, effectOf_round_TR_toNat hlt]
    omega

/-- Settles O52: ROUNDS' effect is that of the remaining ROUND commands. -/
theorem roundsIsRepeatedRound : Obligations.RoundsIsRepeatedRound := by
  intro s hok hTS hle
  exact ⟨_, exec_of_errorOf_eq_none (if_neg (not_not.2 hTS)),
    repeatOk_round _ hTS (by omega) fun h => hok (by omega)⟩

/-! ### SCHED and ROUND commute (rules R148 and R223) -/

/-- A written register of W reads the same in every state with that file. -/
theorem readW_congr {s s' : State} {i : Nat} (hW : RegFile.content s'.W i = RegFile.content s.W i)
    (h : (RegFile.content s.W i).isSome = true) : s'.readW i = s.readW i :=
  readW_of (hW.trans (content_W_of_isSome h))

/-- A schedule step on written words depends on W only. -/
theorem scheduleStep_W_congr {s s' : State} {t : Nat} (hW : s'.W = s.W) (h16 : 16 ≤ t)
    (h : ∀ i, i < t → (RegFile.content s.W i).isSome = true) : (scheduleStep s' t).W = (scheduleStep s t).W := by
  have hread : ∀ i, i < t → s'.readW i = s.readW i := fun i hi => readW_congr (by rw [hW]) (h i hi)
  simp only [scheduleStep, nextDraw_W, hW, hread (t - 2) (by omega), hread (t - 7) (by omega),
    hread (t - 15) (by omega), hread (t - 16) (by omega)]

/-- A round on a written working state depends on V and the word it reads only. -/
theorem roundStep_V_congr {s s' : State} {t : Nat} (hV : s'.V = s.V) (hW : s'.readW t = s.readW t)
    (h : ∀ i, i < 8 → (RegFile.content s.V i).isSome = true) : (roundStep s' t).V = (roundStep s t).V := by
  have hwork : HoldsWorking s' s.working := by
    intro i hi
    rw [hV]
    exact holdsWorking_working h i hi
  simp only [roundStep, nextDraw_V, hV, hW, hwork.working]

/-- The state after a schedule step and a round that the state before both admits. -/
def schedAndRound (s : State) : State :=
  { s with
    W := (scheduleStep s s.TS.toNat).W
    V := (roundStep s s.TR.toNat).V
    TS := s.TS + 1
    TR := s.TR + 1
    draws := s.draws + 1 + 1
    response := some .ok }

/-- After a SCHED the round reads the same V and, below TS, the same word. -/
theorem round_after_sched {s : State} (hTS : s.TS.toNat < 64) (hTR : s.TR.toNat < s.TS.toNat) (hl : s.Loaded) :
    (effectOf .round ((effectOf .sched s).respond .ok)).respond .ok = schedAndRound s := by
  have hword : (RegFile.content s.W s.TR.toNat).isSome = true := hl.schedule hTS _ hTR
  have hread : ((effectOf .sched s).respond .ok).readW s.TR.toNat = s.readW s.TR.toNat :=
    readW_congr (by rw [respond_W, effectOf_sched, scheduleStep_W s _ _ hTS, if_neg hTR.ne]) hword
  have hV : (roundStep ((effectOf .sched s).respond .ok) s.TR.toNat).V = (roundStep s s.TR.toNat).V :=
    roundStep_V_congr rfl hread (hl.working (hTR.trans hTS))
  rw [effectOf_round, schedAndRound, ← hV, effectOf_sched]
  rfl

/-- After a ROUND the schedule step reads the same words. -/
theorem sched_after_round {s : State} (h16 : 16 ≤ s.TS.toNat) (hTS : s.TS.toNat < 64) (hl : s.Loaded) :
    (effectOf .sched ((effectOf .round s).respond .ok)).respond .ok = schedAndRound s := by
  have hW : (scheduleStep ((effectOf .round s).respond .ok) s.TS.toNat).W = (scheduleStep s s.TS.toNat).W :=
    scheduleStep_W_congr rfl h16 (hl.schedule hTS)
  rw [effectOf_sched, schedAndRound, ← hW, effectOf_round]
  rfl

/-- Settles O53: with both due, neither step changes what the other reads. -/
theorem schedAndRoundCommute : Obligations.SchedAndRoundCommute := by
  intro s hinv hl hle hTR
  have hTS : s.TS.toNat < 64 := Nat.lt_succ_of_le hle
  have hTR64 : s.TR.toNat < 64 := hTR.trans hTS
  have hsched : ∀ t : State, t.TS = s.TS → exec .sched t = .next ((effectOf .sched t).respond .ok) :=
    fun t ht => exec_sched_of_ne (by rw [ht]; exact TS_ne_of_toNat_lt hTS)
  have hround : ∀ t : State, t.TR = s.TR → s.TR.toNat < t.TS.toNat →
      exec .round t = .next ((effectOf .round t).respond .ok) :=
    fun t ht hlt => exec_of_errorOf_eq_none (errorOf_round_eq_none (by rwa [ht]) (by rwa [ht]))
  refine ⟨_, _, schedAndRound s, hsched s rfl, ?_, hround s rfl hTR, ?_, rfl, rfl⟩
  · rw [← round_after_sched hTS hTR hl]
    exact hround _ rfl (by rw [respond_TS, effectOf_sched_TS_toNat hTS]; omega)
  · rw [← sched_after_round hinv.ts_ge hTS hl]
    exact hsched _ rfl

end Sys2Proof.Machine
end

section
/-! SUPPORT. The sequencer and the digest finalizer (44_sequencer_finalizer.md): the constants H0 as square roots, the
known answers of `hash`, and what INIT, DIGEST and HASH leave. -/

open Sys2Proof.Claims

namespace Sys2Proof.Machine

/-! ### The initial constants (rule R170) -/

/-- Under some whole part below 5, H0[i] completes the integer square root of the scaled prime. -/
theorem H0_squareRoot : ∀ i < 8, ∃ a < 5,
    (2 ^ 32 * a + (H0.getD i 0).toNat) ^ 2 ≤ firstPrimes.getD i 0 * 2 ^ 64 ∧
    firstPrimes.getD i 0 * 2 ^ 64 < (2 ^ 32 * a + (H0.getD i 0).toNat + 1) ^ 2 := by decide

/-- Settles O33: the `i`-th prime is known, and H0[i] is the low word of its scaled square root. -/
theorem initialConstantsAreSquareRoots : Obligations.InitialConstantsAreSquareRoots := by
  refine ⟨H0_length, fun i hi => ?_⟩
  have hlt : i < 8 := Nat.lt_succ_of_le hi
  obtain ⟨a, -, hle, hlt2⟩ := H0_squareRoot i hlt
  rw [nth_prime_eq (by omega)]
  refine ⟨_, hle, hlt2, ?_⟩
  rw [ofNat_mul_add_toNat, getElem?_eq_getD H0 i hlt]

/-! ### The function hash (rule R175) -/

/-- A message of at most 55 bytes is padded to one block. -/
theorem sha256_of_length_le {m : List Byte} (h : m.length ≤ 55) :
    sha256 m = toBytes (compress H0 (groupWords (pad m))) := by
  have hlen : (groupWords (pad m)).length = 16 := by
    rw [groupWords_length, pad_length, paddedLength_eq]
    omega
  have hblock : blockOf (groupWords (pad m)) 0 = groupWords (pad m) := List.take_of_length_le hlen.le
  rw [sha256, hlen, Nat.div_self (by decide), foldBlocks, foldBlocks, hblock]

/-- The one block of the empty message. -/
theorem groupWords_pad_nil :
    groupWords (pad []) = [0x80000000, 0, 0, 0, 0, 0, 0, 0, 0, 0, 0, 0, 0, 0, 0, 0] := by decide

/-- The one block of "Hello world!". -/
theorem groupWords_pad_helloWorld :
    groupWords (pad [0x48, 0x65, 0x6c, 0x6c, 0x6f, 0x20, 0x77, 0x6f, 0x72, 0x6c, 0x64, 0x21]) =
      [0x48656c6c, 0x6f20776f, 0x726c6421, 0x80000000, 0, 0, 0, 0, 0, 0, 0, 0, 0, 0, 0, 96] := by decide

theorem compress_empty_block :
    compress H0 [0x80000000, 0, 0, 0, 0, 0, 0, 0, 0, 0, 0, 0, 0, 0, 0, 0] =
      [0xe3b0c442, 0x98fc1c14, 0x9afbf4c8, 0x996fb924, 0x27ae41e4, 0x649b934c, 0xa495991b, 0x7852b855] := by
  decide +kernel

theorem compress_helloWorld_block :
    compress H0 [0x48656c6c, 0x6f20776f, 0x726c6421, 0x80000000, 0, 0, 0, 0, 0, 0, 0, 0, 0, 0, 0, 96] =
      [0xc0535e4b, 0xe2b79ffd, 0x93291305, 0x436bf889, 0x314e4a3f, 0xaec05ecf, 0xfcbb7df3, 0x1ad9e51a] := by
  decide +kernel

/-- Settles O34: each message is one block, whose words and whose compression are evaluated. -/
theorem knownAnswersOfHash : Obligations.KnownAnswersOfHash := by
  constructor
  · rw [sha256_of_length_le (by decide), groupWords_pad_nil, compress_empty_block]
    decide
  · rw [sha256_of_length_le (by decide), groupWords_pad_helloWorld, compress_helloWorld_block]
    decide

/-! ### The commands INIT and DIGEST (rules R171 and R172) -/

/-- Settles O35: INIT has no check, and the registers it writes hold H0. -/
theorem initSetsHashStateAndBlockPointer : Obligations.InitSetsHashStateAndBlockPointer :=
  ⟨(decodeAndEncodeAgree _ _).2 rfl, fun s => ⟨(initEffect s).H, rfl, fun i _ => initEffect_H s i⟩⟩

/-- Byte `4i + j` of the digest is byte `j` of the value read from H[i]. -/
theorem digestEffect_DIG_of_lt (s : State) {i j : Nat} (hi : i < 8) (hj : j < 4) :
    RegFile.content (digestEffect s).DIG (4 * i + j) = (be32 (s.readH i))[j]? := by
  rw [digestEffect_DIG, toBytes_getElem?_of_word (running_getElem? s i hi) hj]

/-- Settles O47: DIGEST has no check, and the bytes it writes are those of the words read. -/
theorem digestSerialisesTheHashState : Obligations.DigestSerialisesTheHashState := by
  refine ⟨(decodeAndEncodeAgree _ _).2 rfl, fun s => ⟨(digestEffect s).DIG, rfl, fun i hi => ?_⟩⟩
  have hbyte : ∀ j, j < 4 → RegFile.content (digestEffect s).DIG (4 * i + j) = (be32 (s.readH i))[j]? :=
    fun _ => digestEffect_DIG_of_lt s hi
  exact ⟨hbyte 0 (by decide), hbyte 1 (by decide), hbyte 2 (by decide), hbyte 3 (by decide)⟩

/-! ### The command HASH (rule R174) -/

/-- HASH of a message longer than MSG raises CapacityError. -/
theorem exec_hash_of_gt {s : State} (h : s.LEN.toNat > s.cfg.msgCap) :
    exec .hash s = raise .capacityError 0x0E s :=
  exec_of_errorOf_eq_some (i := .hash) (if_pos h)

/-- The block loop and DIGEST leave the memories and their lengths as PAD and TOWORDS left them. -/
theorem hashEffect_of_ready (s : State) :
    (hashEffect s).PLEN = (padEffect s).PLEN ∧ (hashEffect s).PMB = (padEffect s).PMB ∧
    (hashEffect s).WLEN = (hashReady s).WLEN ∧ (hashEffect s).WSEQ = (hashReady s).WSEQ := by
  rw [hashEffect_eq, hashLooped]
  exact ⟨compressBlocks_PLEN _ _, compressBlocks_PMB _ _, compressBlocks_WLEN _ _, compressBlocks_WSEQ _ _⟩

/-- DIGEST leaves the registers as the block loop left them, the number of blocks written out (rule R174). -/
theorem hashEffect_registers {s : State} (h : paddedLength s.LEN.toNat < 2 ^ 64) :
    HoldsHash (hashEffect s) (foldBlocks s.hashWords ((s.LEN.toNat + 72) / 64)) ∧
    (hashEffect s).BP.toNat = (s.LEN.toNat + 72) / 64 ∧ (hashEffect s).TS = 64 ∧ (hashEffect s).TR = 64 ∧
    HoldsLastBlock (hashEffect s) s.hashWords ((s.LEN.toNat + 72) / 64 - 1) := by
  have hfold := hashLooped_fold h
  rw [hashWords_length, Nat.mul_div_cancel_left _ (by decide)] at hfold
  rw [hashEffect_eq]
  exact hfold

/-- The cells of WSEQ from the number of words on are as before HASH. -/
theorem hashReady_WSEQ_of_ge {s : State} (h : paddedLength s.LEN.toNat < 2 ^ 64) {i : Nat}
    (hi : s.hashWords.length ≤ i) : Memory.content (hashReady s).WSEQ i = Memory.content s.WSEQ i := by
  have hp : (padEffect (initEffect s)).PLEN.toNat = paddedLength s.LEN.toNat := padEffect_PLEN_toNat h
  rw [State.hashWords, groupWords_length, pad_length, message_length, ← hp] at hi
  exact toWordsEffect_WSEQ_of_ge hi

/-- Settles O48: the error; the memories are those PAD and TOWORDS leave, and the registers those of the block loop. -/
theorem hashComputesTheDigest : Obligations.HashComputesTheDigest := by
  refine ⟨(decodeAndEncodeAgree _ _).2 rfl, fun s => exec_hash_of_gt, fun s hwf hle => ?_⟩
  have hlt := paddedLength_lt hwf hle
  obtain ⟨hPLEN, hPMB, hWLEN, hWSEQ⟩ := hashEffect_of_ready s
  obtain ⟨hH, hBP, hTS, hTR, hW, hV⟩ := hashEffect_registers hlt
  have hP : (hashEffect s).PLEN.toNat = paddedLength s.LEN.toNat := by rw [hPLEN, padEffect_PLEN_toNat hlt]
  have hN : (hashEffect s).WLEN.toNat = s.hashWords.length := by rw [hWLEN, hashReady_WLEN hlt]
  have hlen := hashWords_length s
  have hpadded := paddedLength_eq s.LEN.toNat
  refine ⟨(hashEffect s).respond .ok, exec_hash_of_le hle, rfl, fun j _ => hashEffect_DIG hlt j, ?_⟩
  simp only [respond_PLEN, respond_WLEN, respond_BP, respond_PMB, respond_WSEQ, hPMB, hWSEQ, hP, hN, hBP]
  exact ⟨hpadded, by omega, by omega, by omega, hTS, hTR, fun _ => padEffect_PMB_of_lt, fun _ => padEffect_PMB_of_ge,
    toWords_pad _, hashReady_WSEQ hlt, fun _ => hashReady_WSEQ_of_ge hlt, hH, hW, hV,
    hashEffect_cfg s, hashEffect_LEN s, hashEffect_ERR s, hashEffect_MSG s, hashEffect_pending s⟩

end Sys2Proof.Machine
end

section
/-! SUPPORT. The exceptions (60_exceptions.md): what error entry records, which errors a command and a host transaction
raise, what a step that raises one leaves unchanged, and what clears the record. -/

open Sys2Proof.Claims

namespace Sys2Proof.Machine

/-! ### Error entry (rules R191 and R199) -/

/-- The code of a cause is its number in the table of rule R191. -/
theorem code_eq_causeNumber (c : Cause) : c.code = causeNumber c := by
  cases c <;> rfl

/-- The error record after an error, with the recorded word written out (rule R199). -/
theorem recordError_eq (e : Word) (c : Cause) (op : Byte) :
    recordError e c op = if e = 0 then (op.zeroExtend 32 <<< 8) ||| (causeNumber c).zeroExtend 32 else e := by
  rw [recordError, errWord, code_eq_causeNumber]

/-- Settles O13: error entry with the record written out, and the fields of the recorded word. -/
theorem raiseRecordsTheFirstError : Obligations.RaiseRecordsTheFirstError := by
  intro c op s
  refine ⟨?_, errWord_reserved c op, errWord_op c op, ?_⟩
  · rw [raise_eq, recordError_eq]
  · rw [errWord_cause, code_eq_causeNumber]

/-! ### The errors of the commands (rules R191 and R198) -/

theorem toNat_eq_64_iff (x : BitVec 7) : x.toNat = 64 ↔ x = 64 := BitVec.toNat_inj (y := 64)

/-- The check of a command fails with exactly the error of its row in the table. -/
theorem errorOf_eq_some_iff {i : Instr} {s : State} {c : Cause} : errorOf i s = some c ↔ raises i s c := by
  cases i with
  | init | expand | loadv | digest | pad | tobytes | hash => cases c <;> simp [errorOf, raises]
  | loadblk | compress => cases c <;> simp [errorOf, raises, blockOutOfRange_iff, -ite_eq_left_iff]
  | sched | round | rounds | addback => cases c <;> simp [errorOf, raises, toNat_eq_64_iff, -ite_eq_left_iff]
  | towords =>
    by_cases hcap : s.PLEN.toNat > pmbCap s.cfg
    · cases c <;> simp [errorOf, raises, hcap]
    · cases c <;> simp [errorOf, raises, hcap, Nat.le_of_not_lt hcap]

/-- Settles O15: a command that answers an error answers that of its check, one that answers OK has passed its check. -/
theorem commandsRaiseExactlyTheirErrors : Obligations.CommandsRaiseExactlyTheirErrors := by
  intro i s
  obtain ⟨t, ht⟩ := exec_isNext i s
  refine ⟨t, ht, ?_⟩
  simp only [← errorOf_eq_some_iff]
  rcases exec_cases ht with ⟨c, hc, rfl⟩ | ⟨hnone, rfl⟩
  · refine ⟨fun c' => by simp [hc], fun c' hc' => ?_, fun hno => absurd hc (hno c)⟩
    obtain rfl : c = c' := Option.some.inj (hc.symm.trans hc')
    exact recordError_eq _ _ _
  · obtain ⟨-, -, hERR, -⟩ := effectOf_keep i s
    exact ⟨fun c => by simp [hnone], fun c hc => by simp [hnone] at hc, fun _ => ⟨rfl, hERR⟩⟩

/-! ### What a transaction that raises an error leaves (rule R200) -/

theorem exec_of_response_err {i : Instr} {s t : State} {c : Cause} (h : exec i s = .next t)
    (herr : t.response = some (.err c)) :
    errorOf i s = some c ∧ t = { s with ERR := recordError s.ERR c (opcode i), response := some (.err c) } := by
  rcases exec_cases h with ⟨c', hc', rfl⟩ | ⟨-, rfl⟩
  · cases herr
    exact ⟨hc', rfl⟩
  · cases herr

/-- A transaction answered with an error is that error's entry. -/
theorem transact_of_response_err {tx : Txn} {s t : State} {c : Cause} (h : transact tx s = .next t)
    (herr : t.response = some (.err c)) :
    ∃ op, t = { s with ERR := recordError s.ERR c op, response := some (.err c) } := by
  rcases transact_cases h with ⟨c', op, rfl, -⟩ | ⟨r, rfl, hr⟩ | ⟨i, hi⟩ |
    ⟨sp, space, off, width, data, -, -, -, -, rfl⟩
  · cases herr
    exact ⟨op, rfl⟩
  · exact absurd (Option.some.inj herr) (hr c)
  · exact ⟨opcode i, (exec_of_response_err hi herr).2⟩
  · cases herr

/-- Settles O14: the event taken is a transaction, since the reset event leaves no response. -/
theorem errorsWriteOnlyErr : Obligations.ErrorsWriteOnlyErr := by
  intro s t c hp hst herr
  rcases step_cases hst with ⟨hnil, -⟩ | ⟨rest, -, rfl⟩ | ⟨tx, rest, hrest, -, ht⟩
  · exact absurd hnil hp
  · cases herr
  · obtain ⟨op, rfl⟩ := transact_of_response_err ht herr
    exact ⟨recordError s.ERR c op, by rw [hrest, List.tail_cons], fun hne => recordError_of_ne hne c op⟩

/-! ### What clears the record (rules R201 and R202) -/

theorem exec_keeps_ERR {i : Instr} {s t : State} (h : exec i s = .next t) (hne : s.ERR ≠ 0) : t.ERR = s.ERR := by
  rcases exec_cases h with ⟨c, -, rfl⟩ | ⟨-, rfl⟩
  · exact recordError_of_ne hne c _
  · obtain ⟨-, -, hERR, -⟩ := effectOf_keep i s
    exact hERR

/-- A transaction keeps a recorded error, or it is a write to ERR and clears it. -/
theorem transact_keeps_ERR {tx : Txn} {s t : State} (h : transact tx s = .next t) (hne : s.ERR ≠ 0) :
    t.ERR = s.ERR ∨ (t.ERR = 0 ∧ ∃ d, tx = .write 0 1 32 d) := by
  rcases transact_cases h with ⟨c, op, rfl, -⟩ | ⟨r, rfl, -⟩ | ⟨i, hi⟩ |
    ⟨sp, space, off, width, data, rfl, hadm, -, -, rfl⟩
  · exact .inl (recordError_of_ne hne c op)
  · exact .inl rfl
  · exact .inl (exec_keeps_ERR hi hne)
  · obtain ⟨-, -, -, -, -, -, -, -, hkeep | ⟨rfl, rfl, hzero⟩⟩ := cellWrite_keep s sp off data
    · exact .inl hkeep
    · obtain ⟨hsp, -, rfl⟩ := admitted_eq_some.1 hadm
      obtain rfl := spaceOf_eq_some hsp
      exact .inr ⟨hzero, data, rfl⟩

/-- Settles O16: an idle step changes nothing, reset clears ERR, and of the transactions only the write to ERR does. -/
theorem onlyErrWriteOrResetClearsTheRecord : Obligations.OnlyErrWriteOrResetClearsTheRecord := by
  intro s t hst hne hchanged
  rcases step_cases hst with ⟨-, rfl⟩ | ⟨rest, hp, rfl⟩ | ⟨tx, rest, hp, -, ht⟩
  · exact absurd rfl hchanged
  · exact ⟨rfl, rest, .inl hp⟩
  · rcases transact_keeps_ERR ht hne with hkeep | ⟨hzero, d, rfl⟩
    · exact absurd hkeep hchanged
    · exact ⟨hzero, rest, .inr ⟨d, hp⟩⟩

/-! ### BusError (rule R197) -/

theorem spaceNumber_lt (sp : Space) : spaceNumber sp < 8 := spaceOf_lt (spaceOf_spaceNumber sp)

/-- Of a space that holds cells, an access is refused for its offset or its width. -/
theorem accessRefused_spaceNumber {c : Config} {sp : Space} {off width : Nat} :
    accessRefused c (spaceNumber sp) off width ↔ cellCount c sp ≤ off ∨ width ≠ cellWidth sp := by
  simp [accessRefused, spaceTable_spaceNumber, spaceNumber_lt]

/-- The checks reads and writes share refuse exactly what rule R197 refuses of every access. -/
theorem admitted_eq_none_iff {c : Config} {space off width : Nat} :
    admitted c space off width = none ↔ accessRefused c space off width := by
  by_cases hres : 8 ≤ space
  · refine iff_of_true (Option.eq_none_iff_forall_ne_some.2 fun sp hadm => ?_) (.inl hres)
    obtain ⟨hsp, -⟩ := admitted_eq_some.1 hadm
    exact absurd (spaceOf_lt hsp) (Nat.not_lt.2 hres)
  · have hrow : space < (spaceTable c).length := Nat.lt_of_not_le hres
    obtain ⟨sp, rfl, -⟩ := exists_space_of_spaceTable (List.getElem?_eq_getElem hrow)
    rw [accessRefused_spaceNumber, ← not_iff_not]
    simp [← ne_eq, Option.ne_none_iff_exists', admitted_eq_some, spaceOf_spaceNumber]

/-- A write is refused for its access, or because the cell is read only. -/
theorem busRefused_write_iff {c : Config} {space off width d : Nat} :
    busRefused c (.write space off width d) ↔
      admitted c space off width = none ∨
        ∃ sp, admitted c space off width = some sp ∧ cellWritable sp off = false := by
  rw [busRefused, ← admitted_eq_none_iff]
  cases hadm : admitted c space off width with
  | none => simp
  | some sp =>
    obtain ⟨hsp, hoff, -⟩ := admitted_eq_some.1 hadm
    obtain rfl := spaceOf_eq_some hsp
    cases sp with
    | csr =>
      have hlt : off < 12 := hoff
      have hro : off = 10 ∨ off = 11 ↔ 10 ≤ off := by omega
      simp [spaceNumber, cellWritable, hro]
    | h | v | w | dig | msg | pmb | wseq => simp [spaceNumber, cellWritable]

/-- No value written to CMD raises BusError. -/
theorem command_response_ne_busError {v : Word} {s t : State} (h : command v s = .next t) :
    t.response ≠ some (.err .busError) := by
  intro herr
  rcases command_cases v s with ⟨i, -, hc⟩ | ⟨op, -, hc⟩ <;> rw [hc] at h
  · obtain ⟨hbus, -⟩ := exec_of_response_err h herr
    exact errorOf_eq_some_iff.1 hbus
  · cases h
    cases herr

theorem cellRead_ne_err (s : State) (sp : Space) (off : Nat) (c : Cause) : cellRead s sp off ≠ .err c := by
  cases sp <;> simp [cellRead]

/-- A transaction rule R197 refuses raises BusError, with a zero opcode byte. -/
theorem transact_of_busRefused {tx : Txn} {s : State} (h : busRefused s.cfg tx) :
    transact tx s = raise .busError 0 s := by
  cases tx with
  | read space off width => rw [transact, busRead, admitted_eq_none_iff.2 h]
  | write space off width d =>
    rw [transact, busWrite]
    rcases busRefused_write_iff.1 h with hadm | ⟨sp, hadm, hw⟩
    · rw [hadm]
    · simp [hadm, hw]

/-- Only a transaction rule R197 refuses raises BusError: no read of a cell, command or write of a cell does. -/
theorem busRefused_of_response_busError {tx : Txn} {s t : State} (h : transact tx s = .next t)
    (herr : t.response = some (.err .busError)) : busRefused s.cfg tx := by
  cases tx with
  | read space off width =>
    rw [transact] at h
    rcases busRead_cases space off width s with ⟨hadm, -⟩ | ⟨sp, -, hbus⟩
    · exact admitted_eq_none_iff.1 hadm
    · rw [hbus] at h
      cases h
      exact absurd (Option.some.inj herr) (cellRead_ne_err s sp off _)
  | write space off width d =>
    rw [transact] at h
    rcases busWrite_cases space off width d s with ⟨href, -⟩ | ⟨-, -, hbus⟩ | ⟨sp, -, -, -, hbus⟩
    · exact busRefused_write_iff.2 href
    · exact absurd herr (command_response_ne_busError (hbus.symm.trans h))
    · rw [hbus] at h
      cases h
      cases herr

/-- Settles O18: a refused transaction is the entry of BusError, and no other transaction answers it. -/
theorem busErrorExactlyWhenRefused : Obligations.BusErrorExactlyWhenRefused := by
  intro tx s _
  obtain ⟨t, ht⟩ := transact_isNext tx s
  have hentry (h : busRefused s.cfg tx) :
      t = { s with ERR := recordError s.ERR .busError 0, response := some (.err .busError) } := by
    rw [transact_of_busRefused h, raise_eq] at ht
    cases ht
    rfl
  exact ⟨t, ht, ⟨busRefused_of_response_busError ht, fun h => by rw [hentry h]⟩, hentry⟩

/-! ### COMPRESS after HASH (rules R174 and R196) -/

/-- COMPRESS of a block that is not there raises BlockRangeError. -/
theorem exec_compress_of_outOfRange {s : State} (h : 16 * s.BP.toNat + 16 > s.WLEN.toNat) :
    exec .compress s = raise .blockRangeError 0x0C s :=
  exec_of_errorOf_eq_some (i := .compress) (if_pos ((blockOutOfRange_iff s).2 (.inr h)))

/-- Settles O55: HASH leaves WLEN and BP as the words and the blocks of the padded message, so no block is left. -/
theorem compressAfterHashIsOutOfRange : Obligations.CompressAfterHashIsOutOfRange := by
  intro s t hwf hle ht
  obtain ⟨-, -, hhash⟩ := hashComputesTheDigest
  obtain ⟨t', ht', -, -, hPLEN, hWLEN, hBP, -⟩ := hhash s hwf hle
  obtain rfl : t' = t := by rw [ht] at ht'; cases ht'; rfl
  have hdone : 16 * t'.BP.toNat = t'.WLEN.toNat := by omega
  exact ⟨hdone, _, exec_compress_of_outOfRange (by omega), rfl⟩

end Sys2Proof.Machine
end

section
/-! SUPPORT. The commands directly after reset (70_reset_and_hazards.md rule R221): what a command answers by its check,
and the check of each command in the reset state. -/

namespace Sys2Proof.Machine

/-- A command whose check fails while no error is recorded answers its error and records it with its opcode. -/
theorem exec_records_error {i : Instr} {s : State} {c : Cause} (hc : errorOf i s = some c) (hERR : s.ERR = 0) :
    ∃ t, exec i s = .next t ∧ t.response = some (.err c) ∧ t.ERR = errWord c (opcode i) :=
  ⟨_, exec_of_errorOf_eq_some hc, rfl, if_pos hERR⟩

/-- A command whose check passes answers OK. -/
theorem exec_responds_ok {i : Instr} {s : State} (h : errorOf i s = none) :
    ∃ t, exec i s = .next t ∧ t.response = some .ok :=
  ⟨_, exec_of_errorOf_eq_none h, rfl⟩

/-- No words are stored after reset, so the block at BP is not there. -/
theorem resetWith_blockOutOfRange (c : Config) : (State.resetWith c).blockOutOfRange = true :=
  (blockOutOfRange_iff _).2 (.inr (by simp))

/-- Settles O7: after reset TS and TR are 64 and no block is in range, which decides each command's check. -/
theorem commandsRightAfterReset : Obligations.CommandsRightAfterReset := by
  intro c
  have hTS := resetWith_TS c
  have hTR := resetWith_TR c
  have hblock := resetWith_blockOutOfRange c
  have hERR := resetWith_ERR c
  refine ⟨?sched, ?round, ?loadblk, ?compress, ?addback, ?rounds, ?expand⟩
  case sched => exact exec_records_error (by rw [errorOf, if_pos hTS]) hERR
  case round => exact exec_records_error (by rw [errorOf, if_pos (.inl hTR)]) hERR
  case loadblk => exact exec_records_error (by rw [errorOf, if_pos hblock]) hERR
  case compress => exact exec_records_error (by rw [errorOf, if_pos hblock]) hERR
  case addback => exact exec_responds_ok (by rw [errorOf, if_neg (not_not.2 hTR)])
  case rounds => exact exec_responds_ok (by rw [errorOf, if_neg (not_not.2 hTS)])
  case expand => exact exec_responds_ok rfl

end Sys2Proof.Machine
end
